-- ==== Sys2Proof/Word.lean ====
section
/-!
DEFINITION. The widths of CORE: a byte, a 32-bit command word (also the width of RDATA) and a block.

A block is 16 bytes read as one big-endian 128-bit integer (00_scope.md R7, 20_memory.md R31), so it is
held as those 128 bits; the bytes of a block are given by `Machine.blockByte` in Machine/Operands.lean.
-/

namespace Sys2Proof

/-- A byte, an integer in [0,255] (R7). -/
abbrev Byte := BitVec 8

/-- A command word or the value of RDATA, given by value, bit 31 most significant (R32, R45). -/
abbrev Word := BitVec 32

/-- A block: `int(X)` of R7 is its value as a number. -/
abbrev Block := BitVec 128

end Sys2Proof
end

