-- ==== Sys2Proof/Syntax.lean ====
section
/-!
DEFINITION. The fourteen commands of CORE (30_encoding.md R48) as data, one constructor per row of the opcode
table, with the operands assembled as R46 says.
-/

namespace Sys2Proof

/-- The eight private address spaces, named by the selectors 0 to 7 (20_memory.md R30, R36; R47): six byte
buffers and the two 16-byte registers BLK and RES. -/
inductive Space where
  | key | nonce | hdr | din | dout | tag | blk | res
  deriving DecidableEq, Repr

/-- The control registers GETR can name (R47): number 0 STATUS, number 1 TLEN. -/
inductive CtrlReg where
  | status | tlen
  deriving DecidableEq, Repr

/-- The commands (R48). An operand that a word can hold and the command does not accept can still be
written here; `Instr.wellFormed` tells which terms are commands of the spec. -/
inductive Instr where
  /-- `NOP` (R101). -/
  | nop
  /-- `CLR buf` (R102). -/
  | clr (buf : Space)
  /-- `PUT buf, imm8` (R103). -/
  | put (buf : Space) (imm8 : Byte)
  /-- `SETB ix4, imm8` (R104). -/
  | setb (ix4 : BitVec 4) (imm8 : Byte)
  /-- `SETTL imm8` (R105). -/
  | settl (imm8 : Byte)
  /-- `GETB buf, idx16` (R106). -/
  | getb (buf : Space) (idx16 : BitVec 16)
  /-- `GETL buf` (R107). -/
  | getl (buf : Space)
  /-- `GETR reg` (R108). -/
  | getr (reg : CtrlReg)
  /-- `DBL` (R62). -/
  | dbl
  /-- `MAC` (R71). -/
  | mac
  /-- `TMAC t` (R77). -/
  | tmac (t : Byte)
  /-- `CTR` (R84). -/
  | ctr
  /-- `ENC` (R94). -/
  | enc
  /-- `DEC` (R95). -/
  | dec
  deriving DecidableEq, Repr

end Sys2Proof
end

