-- ==== Sys2Proof/WellFormed.lean ====
section
/-!
DEFINITION. Which terms of `Instr` are commands of the spec: the column "legal when" of 30_encoding.md R48, in
terms of the operands (the decoder states the same conditions on the fields of the word, R49).
-/

namespace Sys2Proof

/-- CLR accepts the six buffers, selectors 0 to 5 (R102). -/
def Space.clearable : Space → Bool
  | .key | .nonce | .hdr | .din | .dout | .tag => true
  | .blk | .res => false

/-- PUT accepts KEY, NONCE, HDR, DIN and TAG, selectors 0, 1, 2, 3, 5 (R103). -/
def Space.puttable : Space → Bool
  | .key | .nonce | .hdr | .din | .tag => true
  | .dout | .blk | .res => false

/-- GETB accepts every space but KEY, selectors 1 to 7 (R106, R12). -/
def Space.readable : Space → Bool
  | .key => false
  | .nonce | .hdr | .din | .dout | .tag | .blk | .res => true

/-- The legal commands (R48): the four conditions that the type of the operands does not already give. -/
def Instr.wellFormed : Instr → Bool
  | .nop => true
  | .clr buf => buf.clearable
  | .put buf _ => buf.puttable
  | .setb _ _ => true
  | .settl _ => true
  | .getb buf _ => buf.readable
  | .getl _ => true
  | .getr _ => true
  | .dbl => true
  | .mac => true
  | .tmac t => decide (t ≤ 2#8)
  | .ctr => true
  | .enc => true
  | .dec => true

end Sys2Proof
end

