-- ==== Sys2Proof/Decode.lean ====
section
/-!
DEFINITION. The command word (30_encoding.md R45 to R50): its five fields, the decoder, total on the 32-bit words
and rejecting by name, and after it the encoder and the opcode table's rows of match and mask.
-/

namespace Sys2Proof

/-- The five fields of format C (R45). -/
structure Fields where
  op : BitVec 8
  sel : BitVec 4
  ix4 : BitVec 4
  hi : BitVec 8
  lo : BitVec 8
  deriving DecidableEq, Repr

/-- `op = bits[31:24]`, `sel = bits[23:20]`, `ix4 = bits[19:16]`, `hi = bits[15:8]`, `lo = bits[7:0]` (R46). -/
def fieldsOf (w : Word) : Fields where
  op := w.extractLsb' 24 8
  sel := w.extractLsb' 20 4
  ix4 := w.extractLsb' 16 4
  hi := w.extractLsb' 8 8
  lo := w.extractLsb' 0 8

/-- The word with the given fields, the inverse of `fieldsOf` (R45). -/
def fieldsWord (f : Fields) : Word :=
  f.op ++ f.sel ++ f.ix4 ++ f.hi ++ f.lo

/-- Why a word is Illegal: the five cases R50 lists. The hardware does not record it (R113); it is kept so that
the decoder rejects by name. -/
inductive IllegalReason where
  /-- An opcode R48 does not assign. -/
  | unassignedOpcode
  /-- A must-be-zero field that is not zero. -/
  | nonzeroField
  /-- A reserved selector (8 to 15) or register number (2 to 15). -/
  | reservedSelector
  /-- A selector the command may not touch: CLR of BLK or RES, PUT to DOUT, BLK or RES, GETB of KEY. -/
  | forbiddenSelector
  /-- A TMAC domain tag outside {0,1,2}. -/
  | badDomainTag
  deriving DecidableEq, Repr

/-- The decoder's answer: a command with its operands, or Illegal (R49). -/
inductive Decoded where
  | legal (i : Instr)
  | illegal (r : IllegalReason)
  deriving DecidableEq, Repr

/-- The selector codes (R47); 8 to 15 are reserved. -/
def spaceOfSel (sel : BitVec 4) : Option Space :=
  if sel = 0#4 then some .key
  else if sel = 1#4 then some .nonce
  else if sel = 2#4 then some .hdr
  else if sel = 3#4 then some .din
  else if sel = 4#4 then some .dout
  else if sel = 5#4 then some .tag
  else if sel = 6#4 then some .blk
  else if sel = 7#4 then some .res
  else none

/-- The register numbers of GETR (R47); 2 to 15 are reserved. -/
def ctrlRegOfSel (sel : BitVec 4) : Option CtrlReg :=
  if sel = 0#4 then some .status
  else if sel = 1#4 then some .tlen
  else none

/-- The command `i` when `rest24` is zero (R49: NOP, DBL, MAC, CTR, ENC, DEC). -/
def decodeBare (f : Fields) (i : Instr) : Decoded :=
  if f.sel = 0#4 ∧ f.ix4 = 0#4 ∧ f.hi = 0#8 ∧ f.lo = 0#8 then .legal i else .illegal .nonzeroField

/-- A command that names a space: the selector must be assigned, and one that the command accepts. -/
def decodeSpace (sel : BitVec 4) (accepted : Bool) (i : Space → Instr) : Decoded :=
  match spaceOfSel sel with
  | none => .illegal .reservedSelector
  | some sp => if accepted then .legal (i sp) else .illegal .forbiddenSelector

/-- CLR: `ix4 = 0 and hi = 0 and lo = 0 and sel <= 5` (R49). -/
def decodeClr (f : Fields) : Decoded :=
  if f.ix4 = 0#4 ∧ f.hi = 0#8 ∧ f.lo = 0#8 then
    decodeSpace f.sel (f.sel ≤ 5#4) .clr
  else .illegal .nonzeroField

/-- PUT: `ix4 = 0 and hi = 0 and sel in {0,1,2,3,5}` (R49). -/
def decodePut (f : Fields) : Decoded :=
  if f.ix4 = 0#4 ∧ f.hi = 0#8 then
    decodeSpace f.sel (f.sel ≤ 3#4 ∨ f.sel = 5#4) fun sp => .put sp f.lo
  else .illegal .nonzeroField

/-- SETB: `sel = 0 and hi = 0` (R49). -/
def decodeSetb (f : Fields) : Decoded :=
  if f.sel = 0#4 ∧ f.hi = 0#8 then .legal (.setb f.ix4 f.lo) else .illegal .nonzeroField

/-- SETTL: `sel = 0 and ix4 = 0 and hi = 0` (R49). -/
def decodeSettl (f : Fields) : Decoded :=
  if f.sel = 0#4 ∧ f.ix4 = 0#4 ∧ f.hi = 0#8 then .legal (.settl f.lo) else .illegal .nonzeroField

/-- GETB: `ix4 = 0 and 1 <= sel and sel <= 7`, the index being `hi * 256 + lo` (R49, R46). -/
def decodeGetb (f : Fields) : Decoded :=
  if f.ix4 = 0#4 then
    decodeSpace f.sel (1#4 ≤ f.sel ∧ f.sel ≤ 7#4) fun sp => .getb sp (f.hi ++ f.lo)
  else .illegal .nonzeroField

/-- GETL: `ix4 = 0 and hi = 0 and lo = 0 and sel <= 7` (R49). -/
def decodeGetl (f : Fields) : Decoded :=
  if f.ix4 = 0#4 ∧ f.hi = 0#8 ∧ f.lo = 0#8 then
    decodeSpace f.sel (f.sel ≤ 7#4) .getl
  else .illegal .nonzeroField

/-- GETR: `ix4 = 0 and hi = 0 and lo = 0 and sel <= 1` (R49). -/
def decodeGetr (f : Fields) : Decoded :=
  if f.ix4 = 0#4 ∧ f.hi = 0#8 ∧ f.lo = 0#8 then
    match ctrlRegOfSel f.sel with
    | none => .illegal .reservedSelector
    | some r => .legal (.getr r)
  else .illegal .nonzeroField

/-- TMAC: `sel = 0 and ix4 = 0 and hi = 0 and lo <= 2` (R49). -/
def decodeTmac (f : Fields) : Decoded :=
  if f.sel = 0#4 ∧ f.ix4 = 0#4 ∧ f.hi = 0#8 then
    if f.lo ≤ 2#8 then .legal (.tmac f.lo) else .illegal .badDomainTag
  else .illegal .nonzeroField

/-- The case analysis of R49 on `op`. -/
def decodeFields (f : Fields) : Decoded :=
  if f.op = 0x00#8 then decodeBare f .nop
  else if f.op = 0x01#8 then decodeClr f
  else if f.op = 0x02#8 then decodePut f
  else if f.op = 0x03#8 then decodeSetb f
  else if f.op = 0x04#8 then decodeSettl f
  else if f.op = 0x08#8 then decodeGetb f
  else if f.op = 0x09#8 then decodeGetl f
  else if f.op = 0x0A#8 then decodeGetr f
  else if f.op = 0x10#8 then decodeBare f .dbl
  else if f.op = 0x11#8 then decodeBare f .mac
  else if f.op = 0x12#8 then decodeTmac f
  else if f.op = 0x13#8 then decodeBare f .ctr
  else if f.op = 0x14#8 then decodeBare f .enc
  else if f.op = 0x15#8 then decodeBare f .dec
  else .illegal .unassignedOpcode

/-- Decoding, a total function of the word alone (R49). -/
def decode (w : Word) : Decoded :=
  decodeFields (fieldsOf w)

/-- The command of a word, none where the word is Illegal. -/
def Decoded.instr? : Decoded → Option Instr
  | .legal i => some i
  | .illegal _ => none

/-- The host's reading of a row of the opcode table: the low `nbits` bits of `w`, every bit above them 0. A
command is one 32-bit word given by value (R45), so there is no byte order to lay it out in. -/
def decodeTableWord (nbits w : Nat) : Option Instr :=
  (decode (BitVec.ofNat 32 (w % 2 ^ nbits))).instr?

/-! ### The encoder -/

/-- The selector of a space (R47). -/
def selOfSpace : Space → BitVec 4
  | .key => 0#4
  | .nonce => 1#4
  | .hdr => 2#4
  | .din => 3#4
  | .dout => 4#4
  | .tag => 5#4
  | .blk => 6#4
  | .res => 7#4

/-- The number of a control register (R47). -/
def selOfCtrlReg : CtrlReg → BitVec 4
  | .status => 0#4
  | .tlen => 1#4

/-- The fields of a command: its opcode from R48, its operands in the fields R45 gives them, every other field 0. -/
def encodeFields : Instr → Fields
  | .nop => ⟨0x00#8, 0#4, 0#4, 0#8, 0#8⟩
  | .clr buf => ⟨0x01#8, selOfSpace buf, 0#4, 0#8, 0#8⟩
  | .put buf imm8 => ⟨0x02#8, selOfSpace buf, 0#4, 0#8, imm8⟩
  | .setb ix4 imm8 => ⟨0x03#8, 0#4, ix4, 0#8, imm8⟩
  | .settl imm8 => ⟨0x04#8, 0#4, 0#4, 0#8, imm8⟩
  | .getb buf idx16 => ⟨0x08#8, selOfSpace buf, 0#4, idx16.extractLsb' 8 8, idx16.extractLsb' 0 8⟩
  | .getl buf => ⟨0x09#8, selOfSpace buf, 0#4, 0#8, 0#8⟩
  | .getr reg => ⟨0x0A#8, selOfCtrlReg reg, 0#4, 0#8, 0#8⟩
  | .dbl => ⟨0x10#8, 0#4, 0#4, 0#8, 0#8⟩
  | .mac => ⟨0x11#8, 0#4, 0#4, 0#8, 0#8⟩
  | .tmac t => ⟨0x12#8, 0#4, 0#4, 0#8, t⟩
  | .ctr => ⟨0x13#8, 0#4, 0#4, 0#8, 0#8⟩
  | .enc => ⟨0x14#8, 0#4, 0#4, 0#8, 0#8⟩
  | .dec => ⟨0x15#8, 0#4, 0#4, 0#8, 0#8⟩

/-- The word of a command (R45, R48). A term that is not well formed gets the word the spec calls Illegal for it. -/
def encode (i : Instr) : Word :=
  fieldsWord (encodeFields i)

/-- A row's `match` and `mask` (R48). -/
structure TableRow where
  matchBits : Word
  mask : Word
  deriving DecidableEq, Repr

/-- The row of the opcode table a command belongs to (R48). -/
def tableRow : Instr → TableRow
  | .nop => ⟨0x00000000#32, 0xFFFFFFFF#32⟩
  | .clr _ => ⟨0x01000000#32, 0xFF0FFFFF#32⟩
  | .put _ _ => ⟨0x02000000#32, 0xFF0FFF00#32⟩
  | .setb _ _ => ⟨0x03000000#32, 0xFFF0FF00#32⟩
  | .settl _ => ⟨0x04000000#32, 0xFFFFFF00#32⟩
  | .getb _ _ => ⟨0x08000000#32, 0xFF0F0000#32⟩
  | .getl _ => ⟨0x09000000#32, 0xFF0FFFFF#32⟩
  | .getr _ => ⟨0x0A000000#32, 0xFF0FFFFF#32⟩
  | .dbl => ⟨0x10000000#32, 0xFFFFFFFF#32⟩
  | .mac => ⟨0x11000000#32, 0xFFFFFFFF#32⟩
  | .tmac _ => ⟨0x12000000#32, 0xFFFFFF00#32⟩
  | .ctr => ⟨0x13000000#32, 0xFFFFFFFF#32⟩
  | .enc => ⟨0x14000000#32, 0xFFFFFFFF#32⟩
  | .dec => ⟨0x15000000#32, 0xFFFFFFFF#32⟩

/-- `w and mask = match` (R48). -/
def rowMatches (r : TableRow) (w : Word) : Bool :=
  (w &&& r.mask) == r.matchBits

end Sys2Proof
end

