-- ==== Sys2Proof/Config.lean ====
section
/-!
DEFINITION. What an implementation of CORE fixes and the spec leaves open (00_scope.md R6): the external block
cipher `E` and the capacity `MAXLEN`. Both are constants without a body, so no proof can rest on a value
of theirs. The two fixed capacities KEYCAP and 16 stand in Machine/Operands.lean.
-/

namespace Sys2Proof

/-- The answer of the cipher port: a block or the indication `BlockCipherError` (20_memory.md R41, R42). -/
inductive CipherAnswer where
  | block (y : Block)
  | error
  deriving DecidableEq, Repr, Inhabited

/-- A value of the parameter `E`: a deterministic function of the key and the block (R6, R42). -/
abbrev Cipher := Block → Block → CipherAnswer

/-- `E`, the external `encryptBlock(key, block)`. Nothing is assumed of it (R42), not even that it is a
permutation or that it never fails. A free value (notes/assumptions/5.md). -/
opaque Config.encryptBlock : Block → Block → CipherAnswer

/-- How far MAXLEN lies above its least value 64 (R6: 64 <= MAXLEN <= 65535). A free value
(notes/assumptions/6.md). -/
opaque Config.maxLenAboveLeast : Fin 65472

/-- `MAXLEN`, the capacity in bytes of each of NONCE, HDR, DIN, DOUT (R6). -/
def Config.maxLen : Nat := Config.maxLenAboveLeast.val + 64

end Sys2Proof
end

