-- ==== Sys2Proof/Machine/State.lean ====
section
/-!
DEFINITION. The state of CORE (10_state.md), as plain data, the reasons a step can stop, and the state after
reset (R24).
-/

namespace Sys2Proof.Machine

/-- The result codes that `STATUS.ERR` can hold (R16, R113); the codes 7 to 15 are never written. -/
inductive ErrCode where
  | ok
  | invalidKeyLength
  | invalidTagLength
  | authenticationFailure
  | blockCipherError
  | bufferFull
  | illegalCommand
  deriving DecidableEq, Repr

/-- The eight address spaces (20_memory.md R30). A buffer is the list of its bytes, so it holds nothing beyond
its length (R10); BLK and RES always have their 16 bytes (R13, R14). -/
structure Memory where
  key : List Byte
  nonce : List Byte
  hdr : List Byte
  din : List Byte
  dout : List Byte
  tag : List Byte
  blk : Block
  res : Block
  deriving DecidableEq, Repr

/-- A call on the cipher port: the key and the block presented (R41). -/
abbrev Call := Block × Block

/-- What the host can do to CORE (70_reset_and_hazards.md R135): issue a command word, or assert the reset input.
The host also reads STATUS and RDATA, which changes nothing. -/
inductive HostMove where
  | command (w : Word)
  | reset
  deriving DecidableEq, Repr

/-- Why CORE could stop. NO CONSTRUCTOR: no error of the spec stops the machine (R9 item 5, R117, R135), so nobody
raises a fault. -/
inductive Fault where
  deriving DecidableEq, Repr

/-- Why the model could give a command no meaning. -/
inductive Refusal where
  /-- An arm of `exec` without a meaning. No arm answers it: all fourteen commands have theirs. It would be safe:
  the model stops where the hardware goes on. -/
  | notModelled (mnemonic : String)
  deriving DecidableEq, Repr

/-- The state. `mem`, `err`, `tlen` and `rdata` are CORE's (R9 item 2); `trace` is the ghost TRACE (R41), read by no
rule; `cp` is the host's index of its next command (R19); `host` is the model's own list of the moves the
host will still make, oldest first (notes/assumptions/1.md). -/
structure State where
  mem : Memory
  err : ErrCode
  tlen : Byte
  rdata : Word
  trace : List Call
  cp : Nat
  host : List HostMove
  deriving DecidableEq, Repr

/-- All eight spaces after reset: buffers empty, BLK and RES zero (R24). -/
def Memory.reset : Memory where
  key := []
  nonce := []
  hdr := []
  din := []
  dout := []
  tag := []
  blk := 0#128
  res := 0#128

/-- The state right after reset (R24): every buffer empty, BLK = RES = 0^16, ERR = OK, TLEN = 16, RDATA = 0, TRACE
empty, cp = 0. No host move is listed: a program is the host's, not CORE's (R19). -/
def State.reset : State where
  mem := Memory.reset
  err := .ok
  tlen := 16#8
  rdata := 0#32
  trace := []
  cp := 0
  host := []

end Sys2Proof.Machine
end

