-- ==== Sys2Proof/Machine/Flags.lean ====
section
/-!
DEFINITION. STATUS and its one field ERR (10_state.md R16, 60_exceptions.md R113). CORE has no condition codes (R20):
ERR is all that a command sets beside its result.
-/

namespace Sys2Proof.Machine

/-- The number of a result code (R113). -/
def errNumber : ErrCode → BitVec 4
  | .ok => 0#4
  | .invalidKeyLength => 1#4
  | .invalidTagLength => 2#4
  | .authenticationFailure => 3#4
  | .blockCipherError => 4#4
  | .bufferFull => 5#4
  | .illegalCommand => 6#4

/-- STATUS as software reads it: ERR in bits 3:0, bits 31:4 zero (R16). -/
def statusWord (s : State) : Word :=
  (errNumber s.err).setWidth 32

/-- TLEN as GETR reads it: `zext_32(TLEN)` (R17, R108). -/
def tlenWord (s : State) : Word :=
  s.tlen.setWidth 32

/-- `STATUS.ERR <- e` (R100). -/
def setErr (s : State) (e : ErrCode) : State :=
  { s with err := e }

end Sys2Proof.Machine
end

