-- ==== Sys2Proof/Machine/Operands.lean ====
section
/-!
DEFINITION. The operand forms of CORE: the bytes of a block (00_scope.md R7, 20_memory.md R31), the six buffers a
command can write and their capacities (10_state.md R11), and reading a space (R111).
-/

namespace Sys2Proof.Machine

/-- Byte `i` of a block, byte 0 the most significant (R7, R31). -/
def blockByte (x : Block) (i : Nat) : Byte :=
  x.extractLsb' (8 * (15 - i)) 8

/-- The sixteen bytes of a block, index 0 first (R7). -/
def blockToBytes (x : Block) : List Byte :=
  (List.range 16).map (blockByte x)

/-- A big-endian number with one more byte at its least significant end. -/
def pushByte (acc : Block) (b : Byte) : Block :=
  (acc <<< 8) ||| b.setWidth 128

/-- The block of a sequence of sixteen bytes: `int` of R7, byte 0 the most significant. -/
def blockOfBytes (bs : List Byte) : Block :=
  bs.foldl pushByte 0#128

/-- `X[i] <- v` on a 16-byte register: the other fifteen bytes keep their value (R8, R104). -/
def blockSetByte (x : Block) (i : Nat) (v : Byte) : Block :=
  (x &&& ~~~((0xFF#128) <<< (8 * (15 - i)))) ||| ((v.setWidth 128) <<< (8 * (15 - i)))

/-- `zext_32` of a byte (R7). -/
def zext32 (b : Byte) : Word :=
  b.setWidth 32

/-- The six variable-length byte buffers (R11). -/
inductive Buf where
  | key | nonce | hdr | din | dout | tag
  deriving DecidableEq, Repr

/-- The capacity of a buffer (R11): KEYCAP = 32, MAXLEN four times, 16 for TAG. -/
def cap : Buf → Nat
  | .key => 32
  | .nonce => Config.maxLen
  | .hdr => Config.maxLen
  | .din => Config.maxLen
  | .dout => Config.maxLen
  | .tag => 16

/-- The buffer CLR empties; none for BLK and RES, which have a fixed length (R102). -/
def clrTarget : Space → Option Buf
  | .key => some .key
  | .nonce => some .nonce
  | .hdr => some .hdr
  | .din => some .din
  | .dout => some .dout
  | .tag => some .tag
  | .blk => none
  | .res => none

/-- The buffer PUT appends to; none for DOUT, BLK and RES (R103). -/
def putTarget : Space → Option Buf
  | .key => some .key
  | .nonce => some .nonce
  | .hdr => some .hdr
  | .din => some .din
  | .dout => none
  | .tag => some .tag
  | .blk => none
  | .res => none

/-- The space GETB reads; none for KEY, whose bytes are write-only (R12, R106). -/
def getbSource : Space → Option Space
  | .key => none
  | .nonce => some .nonce
  | .hdr => some .hdr
  | .din => some .din
  | .dout => some .dout
  | .tag => some .tag
  | .blk => some .blk
  | .res => some .res

/-- The content of a buffer. -/
def bufBytes (m : Memory) : Buf → List Byte
  | .key => m.key
  | .nonce => m.nonce
  | .hdr => m.hdr
  | .din => m.din
  | .dout => m.dout
  | .tag => m.tag

/-- The bytes of a space, index 0 first; sixteen of them for BLK and RES (R30). -/
def spaceBytes (m : Memory) : Space → List Byte
  | .key => m.key
  | .nonce => m.nonce
  | .hdr => m.hdr
  | .din => m.din
  | .dout => m.dout
  | .tag => m.tag
  | .blk => blockToBytes m.blk
  | .res => blockToBytes m.res

/-- The length GETL reports: 16 for BLK and RES (R107). -/
def spaceLen (m : Memory) : Space → Nat
  | .key => m.key.length
  | .nonce => m.nonce.length
  | .hdr => m.hdr.length
  | .din => m.din.length
  | .dout => m.dout.length
  | .tag => m.tag.length
  | .blk => 16
  | .res => 16

/-- The byte at the address `sp:i`, none where there is no such byte (R10, R30). -/
def byteAt (m : Memory) (sp : Space) (i : Nat) : Option Byte :=
  (spaceBytes m sp)[i]?

/-- What GETB reads: a byte at or beyond the length reads as 0 (R106, D23). -/
def readByte (m : Memory) (sp : Space) (i : Nat) : Byte :=
  (byteAt m sp i).getD 0#8

/-- `B <- X`: the whole content of a buffer is replaced (R8). -/
def setBuf (m : Memory) (b : Buf) (x : List Byte) : Memory :=
  match b with
  | .key => { m with key := x }
  | .nonce => { m with nonce := x }
  | .hdr => { m with hdr := x }
  | .din => { m with din := x }
  | .dout => { m with dout := x }
  | .tag => { m with tag := x }

/-- No buffer is longer than its capacity (R10: the invariant `B.len <= cap(B)`). A buffer is the list of its
bytes, so two equal memories are equal data whatever writes made them. -/
abbrev Memory.wf (m : Memory) : Prop :=
  m.key.length ≤ cap .key ∧ m.nonce.length ≤ cap .nonce ∧ m.hdr.length ≤ cap .hdr ∧
    m.din.length ≤ cap .din ∧ m.dout.length ≤ cap .dout ∧ m.tag.length ≤ cap .tag

end Sys2Proof.Machine
end

