-- ==== Sys2Proof/Machine/Ops.lean ====
section
/-!
DEFINITION. The shared operations: the cipher port primitive `Ecall` with its record of calls and its error
(00_scope.md R8, 20_memory.md R41 to R43), the end of a command with and without an error (60_exceptions.md R117),
the effect of an illegal word (30_encoding.md R50), and the reset input (70_reset_and_hazards.md R127).
-/

namespace Sys2Proof.Machine

/-- What a step or a meaning answers. -/
abbrev StepOutcome := Host.Outcome State Fault Refusal

/-- The errors a function rule can raise: the source's four (R3, R113). -/
inductive CoreError where
  | invalidKeyLength
  | invalidTagLength
  | authenticationFailure
  | blockCipherError
  deriving DecidableEq, Repr

/-- The code of an error that was raised (R113). -/
def errCodeOf : CoreError → ErrCode
  | .invalidKeyLength => .invalidKeyLength
  | .invalidTagLength => .invalidTagLength
  | .authenticationFailure => .authenticationFailure
  | .blockCipherError => .blockCipherError

/-- How the evaluation of a function rule went: the calls it made on the cipher port, oldest first, and its
value or the error that ended it (R8). -/
structure Run (α : Type) where
  calls : List Call
  result : Except CoreError α
  deriving Repr

/-- A value, without a call. -/
def runPure {α : Type} (a : α) : Run α where
  calls := []
  result := .ok a

/-- `raise e` (R8). -/
def runRaise {α : Type} (e : CoreError) : Run α where
  calls := []
  result := .error e

/-- Evaluate `r`, then `f` on its value. After an error nothing more is computed and no call is made (R8). -/
def runBind {α β : Type} (r : Run α) (f : α → Run β) : Run β :=
  match r.result with
  | .ok a => { calls := r.calls ++ (f a).calls, result := (f a).result }
  | .error e => { calls := r.calls, result := .error e }

/-- `Ecall(K, X)`: record the call, then the block E answers, or raise BlockCipherError (R8, R41). -/
def ecall (E : Cipher) (K X : Block) : Run Block where
  calls := [(K, X)]
  result :=
    match E K X with
    | .block y => .ok y
    | .error => .error .blockCipherError

/-- The 16-byte key presented on every call: `KEY[0..16)` (R41). -/
def keyBlock (K : List Byte) : Block :=
  blockOfBytes (K.take 16)

/-- TRACE grows by the calls of a command (R41). -/
def appendTrace (s : State) (cs : List Call) : State :=
  { s with trace := s.trace ++ cs }

/-- `buf <- x` and the command's result code (R102, R103). -/
def endWithBuf (s : State) (b : Buf) (x : List Byte) (e : ErrCode) : State :=
  setErr { s with mem := setBuf s.mem b x } e

/-- `RDATA <- v`; an observing command leaves ERR as it was (R100). -/
def endWithRdata (s : State) (v : Word) : State :=
  { s with rdata := v }

/-- `BLK <- x; ERR <- OK` (R104). -/
def endWithBlk (s : State) (x : Block) : State :=
  setErr { s with mem := { s.mem with blk := x } } .ok

/-- `RES <- x` and the command's result code (R62, R71). -/
def endWithRes (s : State) (x : Block) (e : ErrCode) : State :=
  setErr { s with mem := { s.mem with res := x } } e

/-- `DOUT <- x` and the command's result code (R84, R95). -/
def endWithDout (s : State) (x : List Byte) (e : ErrCode) : State :=
  setErr { s with mem := { s.mem with dout := x } } e

/-- `DOUT <- x; TAG <- t` and the command's result code (R94). -/
def endWithDoutTag (s : State) (x t : List Byte) (e : ErrCode) : State :=
  setErr { s with mem := { s.mem with dout := x, tag := t } } e

/-- The end of MAC and TMAC (R71, R77): the digest in RES, or on an error RES is zeroed (R117). -/
def finishRes (r : Run Block) (s : State) : State :=
  match r.result with
  | .ok d => endWithRes (appendTrace s r.calls) d .ok
  | .error e => endWithRes (appendTrace s r.calls) 0#128 (errCodeOf e)

/-- The end of CTR and DEC (R84, R95): the result in DOUT, or on an error DOUT is emptied (R117). -/
def finishDout (r : Run (List Byte)) (s : State) : State :=
  match r.result with
  | .ok x => endWithDout (appendTrace s r.calls) x .ok
  | .error e => endWithDout (appendTrace s r.calls) [] (errCodeOf e)

/-- The end of ENC (R94): ciphertext and tag, or on an error both outputs emptied (R117). -/
def finishDoutTag (r : Run (List Byte × List Byte)) (s : State) : State :=
  match r.result with
  | .ok (c, t) => endWithDoutTag (appendTrace s r.calls) c t .ok
  | .error e => endWithDoutTag (appendTrace s r.calls) [] [] (errCodeOf e)

/-- The effect of a word that decodes to Illegal: `ERR <- IllegalCommand` and nothing else (R50, R117). It is also the
meaning of a term of `Instr` that is not well formed, whose word is Illegal. -/
def illegalCommand (s : State) : State :=
  setErr s .illegalCommand

/-- The reset input (R127): every piece of state at its reset value. The host keeps the moves it has still to
make; they are not CORE's. -/
def resetInput (rest : List HostMove) : State :=
  { State.reset with host := rest }

/-- The host presents a command word: its move is used up and its index advances by one (R19), whatever the
word is. -/
def acceptCommand (s : State) (rest : List HostMove) : State :=
  { s with host := rest, cp := s.cp + 1 }

end Sys2Proof.Machine
end

