-- ==== Sys2Proof/Machine/CounterCipher.lean ====
section
/-!
DEFINITION. The counter-mode keystream generator and the CTR command (43_countercipher.md).
-/

namespace Sys2Proof.Machine

/-- `Inc128(S)` (R80): plus one, modulo 2^128 (D25). -/
def inc128 (s : Block) : Block :=
  s + 1#128

/-- Byte-wise XOR of a chunk with the leading bytes of a keystream block (R81). -/
def xorChunk (chunk : List Byte) (ks : Block) : List Byte :=
  List.zipWith (· ^^^ ·) chunk (blockToBytes ks)

/-- `nb` more keystream blocks from the counter `S` (R81). The counter of a block after the last is named but
never presented, so incrementing it is no event (90_conflicts.md C1). -/
def ctrBlocks (E : Cipher) (K : Block) : Nat → Block → List Byte → Run (List Byte)
  | 0, _, _ => runPure []
  | nb + 1, S, x =>
    runBind (ecall E K S) fun ks =>
      runBind (ctrBlocks E K nb (inc128 S) (x.drop 16)) fun y =>
        runPure (xorChunk (x.take 16) ks ++ y)

/-- `CounterCipher(K, IV, X)` (R81): the key check first, also for empty data (R83); `ceil(m/16)` calls, none for
empty data (R82). -/
def counterCipherRun (E : Cipher) (K : List Byte) (IV : Block) (x : List Byte) : Run (List Byte) :=
  if K.length = 16 then ctrBlocks E (keyBlock K) ((x.length + 15) / 16) IV x
  else runRaise .invalidKeyLength

/-- The CTR command on a state, for any cipher (R84). -/
def ctrCommand (E : Cipher) (s : State) : State :=
  finishDout (counterCipherRun E s.mem.key s.mem.blk s.mem.din) s

/-- `CTR` (R84): DIN XOR the keystream from the counter BLK. -/
def execCtr (s : State) : StepOutcome :=
  .next (ctrCommand Config.encryptBlock s)

end Sys2Proof.Machine
end

