-- ==== Sys2Proof/Machine/FieldDouble.lean ====
section
/-!
DEFINITION. FieldDouble and the DBL command (40_fielddouble.md).
-/

namespace Sys2Proof.Machine

/-- `FieldDouble(X)` (R60): shift left by one bit, the bit shifted out is dropped; where the INPUT's top bit was 1,
the constant 0x87 is XORed into the least significant byte. -/
def fieldDouble (x : Block) : Block :=
  if x.msb then (x <<< 1) ^^^ 0x87#128 else x <<< 1

/-- `DBL` (R62): `RES <- FieldDouble(BLK); ERR <- OK`. -/
def execDbl (s : State) : StepOutcome :=
  .next (endWithRes s (fieldDouble s.mem.blk) .ok)

end Sys2Proof.Machine
end

