-- ==== Sys2Proof/Machine/Mac.lean ====
section
/-!
DEFINITION. The CBC-MAC engine and the MAC command (41_mac.md).
-/

namespace Sys2Proof.Machine

/-- Whether a message takes the branch without padding (R66): its length is a positive multiple of 16. -/
def noPadding (m : List Byte) : Bool :=
  decide (0 < m.length ∧ m.length % 16 = 0)

/-- The padded message (R66): M itself, or M, then 0x80, then 15 - (m mod 16) zero bytes. -/
def padMessage (m : List Byte) : List Byte :=
  if noPadding m then m else m ++ 0x80#8 :: List.replicate (15 - m.length % 16) 0#8

/-- The first `n` blocks of a sequence, in index order (R31: block j of X is `X[16j .. 16j+16)`). -/
def takeBlocks : Nat → List Byte → List Block
  | 0, _ => []
  | n + 1, x => blockOfBytes (x.take 16) :: takeBlocks n (x.drop 16)

/-- Masking (R67): the last block is XORed with the subkey, the others are unchanged. -/
def maskLast (S : Block) : List Block → List Block
  | [] => []
  | [q] => [q ^^^ S]
  | q :: q' :: qs => q :: maskLast S (q' :: qs)

/-- Chaining (R68): `D <- Ecall(K, D xor Q)` for the blocks in order. -/
def chainBlocks (E : Cipher) (K : Block) : Block → List Block → Run Block
  | D, [] => runPure D
  | D, Q :: Qs => runBind (ecall E K (D ^^^ Q)) fun D' => chainBlocks E K D' Qs

/-- The masked blocks `Q_0 .. Q_(n-1)` of a message, given `L` (R65 to R67): subkey B = FieldDouble(L) without padding,
P = FieldDouble(B) with padding. -/
def maskedBlocks (L : Block) (m : List Byte) : List Block :=
  maskLast (if noPadding m then fieldDouble L else fieldDouble (fieldDouble L))
    (takeBlocks ((padMessage m).length / 16) (padMessage m))

/-- `MAC(K, M)` (R69): the key check before any call (R70), then `L <- Ecall(K, 0^16)`, then the chain from `0^16`. -/
def macRun (E : Cipher) (K m : List Byte) : Run Block :=
  if K.length = 16 then
    runBind (ecall E (keyBlock K) 0#128) fun L =>
      chainBlocks E (keyBlock K) 0#128 (maskedBlocks L m)
  else runRaise .invalidKeyLength

/-- The MAC command on a state, for any cipher (R71). -/
def macCommand (E : Cipher) (s : State) : State :=
  finishRes (macRun E s.mem.key s.mem.din) s

/-- `MAC` (R71): the digest of DIN under KEY. -/
def execMac (s : State) : StepOutcome :=
  .next (macCommand Config.encryptBlock s)

end Sys2Proof.Machine
end

