-- ==== Sys2Proof/Machine/TaggedMac.lean ====
section
/-!
DEFINITION. The domain-separated tag dispatcher and the TMAC command (42_taggedmac.md).
-/

namespace Sys2Proof.Machine

/-- `Prefix(t)`: fifteen zero bytes, then `t` (R75). -/
def domainBlock (t : Byte) : List Byte :=
  List.replicate 15 0#8 ++ [t]

/-- `TaggedMAC(K, t, M) = MAC(K, Prefix(t) M)` (R76). -/
def taggedMacRun (E : Cipher) (K : List Byte) (t : Byte) (m : List Byte) : Run Block :=
  macRun E K (domainBlock t ++ m)

/-- The TMAC command on a state, for any cipher (R77). -/
def tmacCommand (E : Cipher) (t : Byte) (s : State) : State :=
  finishRes (taggedMacRun E s.mem.key t s.mem.din) s

/-- `TMAC t` (R77): legal for the domain tags 0, 1, 2; any other is IllegalCommand and RES is not changed. -/
def execTmac (t : Byte) (s : State) : StepOutcome :=
  if t ≤ 2#8 then .next (tmacCommand Config.encryptBlock t s) else .next (illegalCommand s)

end Sys2Proof.Machine
end

