-- ==== Sys2Proof/Machine/Aead.lean ====
section
/-!
DEFINITION. Encrypt, the tag comparison, Decrypt, and the commands ENC and DEC (44_aead.md).
-/

namespace Sys2Proof.Machine

/-- `Encrypt(K, N, H, P, tl)` (R88, R90): the two checks before any call, then the four steps in their order; the
counter starts at the digest N', and the third digest is over the ciphertext. The tag is the first `tl`
bytes of the XOR of the three digests (R89). -/
def encryptRun (E : Cipher) (K N H P : List Byte) (tl : Nat) : Run (List Byte × List Byte) :=
  if K.length = 16 then
    if tl ≤ 16 then
      runBind (taggedMacRun E K 0#8 N) fun N' =>
      runBind (taggedMacRun E K 1#8 H) fun H' =>
      runBind (counterCipherRun E K N' P) fun C =>
      runBind (taggedMacRun E K 2#8 C) fun C' =>
        runPure (C, (blockToBytes (N' ^^^ H' ^^^ C')).take tl)
    else runRaise .invalidTagLength
  else runRaise .invalidKeyLength

/-- The loop of `CtEq` (R92): the OR of the differences, every byte visited. -/
def tagDiff : Byte → List Byte → List Byte → Byte
  | acc, a :: as, b :: bs => tagDiff (acc ||| (a ^^^ b)) as bs
  | acc, _, _ => acc

/-- `CtEq(A, B)` (R92), which the spec defines for sequences of the same length; on lengths that differ it is false
here (notes/assumptions/11.md). -/
def ctEq (a b : List Byte) : Bool :=
  a.length == b.length && tagDiff 0#8 a b == 0#8

/-- `Decrypt(K, N, H, C, T)` (R91): the expected tag is as long as the received one; the CounterCipher is started only
after the comparison has passed (R93). -/
def decryptRun (E : Cipher) (K N H C T : List Byte) : Run (List Byte) :=
  if K.length = 16 then
    runBind (taggedMacRun E K 0#8 N) fun N' =>
    runBind (taggedMacRun E K 1#8 H) fun H' =>
    runBind (taggedMacRun E K 2#8 C) fun C' =>
      if ctEq T ((blockToBytes (N' ^^^ H' ^^^ C')).take T.length) then counterCipherRun E K N' C
      else runRaise .authenticationFailure
  else runRaise .invalidKeyLength

/-- The ENC command on a state, for any cipher (R94). -/
def encCommand (E : Cipher) (s : State) : State :=
  finishDoutTag (encryptRun E s.mem.key s.mem.nonce s.mem.hdr s.mem.din s.tlen.toNat) s

/-- `ENC` (R94): ciphertext in DOUT, tag in TAG. -/
def execEnc (s : State) : StepOutcome :=
  .next (encCommand Config.encryptBlock s)

/-- The DEC command on a state, for any cipher (R95). It does not read TLEN. -/
def decCommand (E : Cipher) (s : State) : State :=
  finishDout (decryptRun E s.mem.key s.mem.nonce s.mem.hdr s.mem.din s.mem.tag) s

/-- `DEC` (R95): the plaintext in DOUT once the tag in TAG has been verified. -/
def execDec (s : State) : StepOutcome :=
  .next (decCommand Config.encryptBlock s)

end Sys2Proof.Machine
end

