-- ==== Sys2Proof/Machine/HostAccess.lean ====
section
/-!
DEFINITION. The host-access commands (45_host_access.md R101 to R108). None of them makes an `Ecall`.
-/

namespace Sys2Proof.Machine

/-- `NOP` (R101): reads nothing, writes nothing. -/
def execNop (s : State) : StepOutcome :=
  .next s

/-- `CLR buf` (R102): `buf <- []; ERR <- OK`. -/
def execClr (buf : Space) (s : State) : StepOutcome :=
  match clrTarget buf with
  | some b => .next (endWithBuf s b [] .ok)
  | none => .next (illegalCommand s)

/-- `PUT buf, imm8` (R103): BufferFull at capacity, the buffer unchanged; else the byte goes to index `buf.len`. -/
def execPut (buf : Space) (imm8 : Byte) (s : State) : StepOutcome :=
  match putTarget buf with
  | some b =>
    if (bufBytes s.mem b).length = cap b then .next (setErr s .bufferFull)
    else .next (endWithBuf s b (bufBytes s.mem b ++ [imm8]) .ok)
  | none => .next (illegalCommand s)

/-- `SETB ix4, imm8` (R104): `BLK[ix4] <- imm8; ERR <- OK`. -/
def execSetb (ix4 : BitVec 4) (imm8 : Byte) (s : State) : StepOutcome :=
  .next (endWithBlk s (blockSetByte s.mem.blk ix4.toNat imm8))

/-- `SETTL imm8` (R105): `TLEN <- imm8; ERR <- OK`; a value above 16 is stored, not rejected. -/
def execSettl (imm8 : Byte) (s : State) : StepOutcome :=
  .next (setErr { s with tlen := imm8 } .ok)

/-- `GETB buf, idx16` (R106): RDATA gets the byte, or 0 at or beyond the length. -/
def execGetb (buf : Space) (idx16 : BitVec 16) (s : State) : StepOutcome :=
  match getbSource buf with
  | some sp => .next (endWithRdata s (zext32 (readByte s.mem sp idx16.toNat)))
  | none => .next (illegalCommand s)

/-- `GETL buf` (R107): RDATA gets the length. -/
def execGetl (buf : Space) (s : State) : StepOutcome :=
  .next (endWithRdata s (BitVec.ofNat 32 (spaceLen s.mem buf)))

/-- `GETR reg` (R108): RDATA gets STATUS or TLEN; reading STATUS does not clear ERR. -/
def execGetr (reg : CtrlReg) (s : State) : StepOutcome :=
  match reg with
  | .status => .next (endWithRdata s (statusWord s))
  | .tlen => .next (endWithRdata s (tlenWord s))

end Sys2Proof.Machine
end

