-- ==== Sys2Proof/Machine/Dispatch.lean ====
section
/-!
DEFINITION. One command executed to completion: the meaning of each constructor of `Instr`.
-/

namespace Sys2Proof.Machine

def exec (i : Instr) (s : State) : Host.Outcome State Fault Refusal :=
  match i with
  | .nop => Sys2Proof.Machine.execNop s
  | .clr buf => Sys2Proof.Machine.execClr buf s
  | .put buf imm8 => Sys2Proof.Machine.execPut buf imm8 s
  | .setb ix4 imm8 => Sys2Proof.Machine.execSetb ix4 imm8 s
  | .settl imm8 => Sys2Proof.Machine.execSettl imm8 s
  | .getb buf idx16 => Sys2Proof.Machine.execGetb buf idx16 s
  | .getl buf => Sys2Proof.Machine.execGetl buf s
  | .getr reg => Sys2Proof.Machine.execGetr reg s
  | .dbl => Sys2Proof.Machine.execDbl s
  | .mac => Sys2Proof.Machine.execMac s
  | .tmac t => Sys2Proof.Machine.execTmac t s
  | .ctr => Sys2Proof.Machine.execCtr s
  | .enc => Sys2Proof.Machine.execEnc s
  | .dec => Sys2Proof.Machine.execDec s

end Sys2Proof.Machine
end

