-- ==== Sys2Proof/Machine/Step.lean ====
section
/-!
DEFINITION. One step: one move of the host (70_reset_and_hazards.md R135). CORE fetches nothing (20_memory.md R40): a
command word is what the host presents, and is used up as it is presented.
-/

namespace Sys2Proof.Machine

/-- One host move. A command word is decoded (R49) and executed, or has the effect of an illegal word (R50); the reset
input gives the reset state (R127); where the host makes no further move, CORE holds its state (R124). -/
def step (s : State) : Host.Outcome State Fault Refusal :=
  match s.host with
  | [] => .next s
  | .reset :: rest => .next (resetInput rest)
  | .command w :: rest =>
    match decode w with
    | .legal i => exec i (acceptCommand s rest)
    | .illegal _ => .next (illegalCommand (acceptCommand s rest))

/-- The host's next move becomes the command word whose low `nbits` bits are those of `w`, the bits above them 0. It
stands for the host issuing that word (notes/assumptions/4.md). -/
def State.withFetchWord (s : State) (nbits w : Nat) : State :=
  { s with host := .command (BitVec.ofNat 32 (w % 2 ^ nbits)) :: s.host }

end Sys2Proof.Machine
end

