-- ==== Sys2Proof/Safety.lean ====
section
/-!
DEFINITION. What counts as a good state, and what it means that a command leaves something unchanged, in the terms the
statements use.
-/

namespace Sys2Proof.Machine

/-- The invariant of CORE: every buffer within its capacity (10_state.md R10), so that every byte of every buffer is
within reach of GETB's 16-bit index (30_encoding.md R46) and the length of a tag is one DEC can compare. -/
abbrev State.Inv (s : State) : Prop := s.mem.wf

/-- Every address outside the listed spaces reads after as it read before, and has a byte after exactly where it had
one before. -/
def sameBytesOutside (written : List Space) (s t : State) : Prop :=
  ∀ sp, sp ∉ written → ∀ i, byteAt t.mem sp i = byteAt s.mem sp i

/-- No call on the cipher port was made, and the host's side of the state is as it was. -/
def sameTraceAndHost (s t : State) : Prop :=
  t.trace = s.trace ∧ t.cp = s.cp ∧ t.host = s.host

/-- The two states agree in everything but the bytes of KEY; the length of KEY, which GETL shows, is the same. -/
def agreeButKeyBytes (s t : State) : Prop :=
  s.mem.key.length = t.mem.key.length ∧
    { s with mem := { s.mem with key := [] } } = { t with mem := { t.mem with key := [] } }

/-- `n` steps, stopping at the first that answers no next state. -/
def steps : Nat → State → StepOutcome
  | 0, s => .next s
  | n + 1, s =>
    match step s with
    | .next t => steps n t
    | .fault f => .fault f
    | .refused r => .refused r

end Sys2Proof.Machine
end

