-- ==== Sys2Proof/Safety/Pseudocode.lean ====
section
/-!
DEFINITION. The function rules of the spec in the form its pseudocode has, with block indices j and byte indices i
(41_mac.md R65 to R69, 43_countercipher.md R81, 44_aead.md R88 and R91), written apart from the machine's own
recursive definitions: the statements hold the machine against these. No step uses them.

Every function here is total in the cipher: where E answers the error, `answer` is a zero block, which no
statement reads, because the list of calls then says where the command ended.
-/

namespace Sys2Proof.Pseudo

open Sys2Proof.Machine

/-! ### The command word (00_scope.md R7, 30_encoding.md R46, R47), the result codes and the capacities (10_state.md) -/

/-- `bits[hi:lo]` of a word: `(w >> lo) mod 2^(hi-lo+1)` (R7). -/
def bits (w : Word) (hi lo : Nat) : Nat :=
  (w.toNat >>> lo) % 2 ^ (hi - lo + 1)

/-- The selector codes (R47). -/
def selNumber : Space → Nat
  | .key => 0
  | .nonce => 1
  | .hdr => 2
  | .din => 3
  | .dout => 4
  | .tag => 5
  | .blk => 6
  | .res => 7

/-- The register numbers of GETR (R47). -/
def regNumber : CtrlReg → Nat
  | .status => 0
  | .tlen => 1

/-- The fourteen opcodes (R48). -/
def opcodes : List Nat :=
  [0x00, 0x01, 0x02, 0x03, 0x04, 0x08, 0x09, 0x0A, 0x10, 0x11, 0x12, 0x13, 0x14, 0x15]

/-- The number of a result code (R16, R113). -/
def codeNumber : ErrCode → Nat
  | .ok => 0
  | .invalidKeyLength => 1
  | .invalidTagLength => 2
  | .authenticationFailure => 3
  | .blockCipherError => 4
  | .bufferFull => 5
  | .illegalCommand => 6

/-- How many bytes a space can hold (R11, R13, R14). -/
def capacity : Space → Nat
  | .key => 32
  | .nonce => Config.maxLen
  | .hdr => Config.maxLen
  | .din => Config.maxLen
  | .dout => Config.maxLen
  | .tag => 16
  | .blk => 16
  | .res => 16

/-! ### The cipher port (00_scope.md R8, 20_memory.md R41) -/

/-- The block E answers. -/
def answer (E : Cipher) (K X : Block) : Block :=
  match E K X with
  | .block y => y
  | .error => 0#128

/-- Whether a call is answered with BlockCipherError. -/
def fails (E : Cipher) (c : Call) : Bool :=
  match E c.1 c.2 with
  | .block _ => false
  | .error => true

/-- Whether some call of a list is answered with BlockCipherError. -/
def anyFails (E : Cipher) (cs : List Call) : Bool :=
  cs.any (fails E)

/-- The calls made of a list of intended calls: up to and including the first that fails (R117). -/
def untilFailure (E : Cipher) : List Call → List Call
  | [] => []
  | c :: cs => if fails E c then [c] else c :: untilFailure E cs

/-! ### MAC (41_mac.md) -/

/-- `ceil(x / 16)` (R81, and `b(x)` of R97). -/
def ceil16 (n : Nat) : Nat :=
  (n + 15) / 16

/-- The number of blocks, `n = len(padded) / 16` (R66): the padded message is M itself, or has
`16 * (floor(m/16) + 1)` bytes. -/
def blockCount (m : List Byte) : Nat :=
  if 0 < m.length ∧ m.length % 16 = 0 then m.length / 16 else m.length / 16 + 1

/-- Byte `i` of the padded message (R66): M's own bytes, then 0x80, then zeros. -/
def paddedByte (m : List Byte) (i : Nat) : Byte :=
  if i < m.length then m[i]?.getD 0#8 else if i = m.length then 0x80#8 else 0#8

/-- Block j of the padded message, `padded[16j .. 16j+16)` (R67, R31). -/
def paddedBlock (m : List Byte) (j : Nat) : Block :=
  blockOfBytes ((List.range 16).map fun i => paddedByte m (16 * j + i))

/-- Subkey B = FieldDouble(L), or P = FieldDouble(B) (R65, R66). -/
def subkey (L : Block) (m : List Byte) : Block :=
  if 0 < m.length ∧ m.length % 16 = 0 then fieldDouble L else fieldDouble (fieldDouble L)

/-- `Q_j` (R67). -/
def maskedBlock (L : Block) (m : List Byte) (j : Nat) : Block :=
  if j + 1 = blockCount m then paddedBlock m j ^^^ subkey L m else paddedBlock m j

/-- `D_j` (R68): `D_0 = 0^16`, `D_(j+1) = E(K, D_j xor Q_j)`, with `L = E(K, 0^16)`. -/
def chainValue (E : Cipher) (K : Block) (m : List Byte) : Nat → Block
  | 0 => 0#128
  | j + 1 => answer E K (chainValue E K m j ^^^ maskedBlock (answer E K 0#128) m j)

/-- The digest `D_n` (R68). -/
def digest (E : Cipher) (K : Block) (m : List Byte) : Block :=
  chainValue E K m (blockCount m)

/-- The calls of a MAC in order: `(K, 0^16)` (R65), then `(K, D_j xor Q_j)` for j = 0, ..., n-1 (R68). -/
def macCalls (E : Cipher) (K : Block) (m : List Byte) : List Call :=
  (K, 0#128) :: (List.range (blockCount m)).map fun j =>
    (K, chainValue E K m j ^^^ maskedBlock (answer E K 0#128) m j)

/-- `Prefix(t) M` (R75, R76). -/
def tagged (t : Byte) (m : List Byte) : List Byte :=
  List.replicate 15 0#8 ++ t :: m

/-! ### CounterCipher (43_countercipher.md) -/

/-- Keystream block j is `E(K, blk((int(IV) + j) mod 2^128))` (R81). -/
def keystreamBlock (E : Cipher) (K IV : Block) (j : Nat) : Block :=
  answer E K (BitVec.ofNat 128 (IV.toNat + j))

/-- Every byte of X XOR byte `i mod 16` of keystream block `i / 16` (R81). -/
def ctrOut (E : Cipher) (K IV : Block) (x : List Byte) : List Byte :=
  x.mapIdx fun i b => b ^^^ blockByte (keystreamBlock E K IV (i / 16)) (i % 16)

/-- The calls of a CounterCipher: `ceil(m/16)` of them, in increasing counter order (R81). -/
def ctrCalls (K IV : Block) (x : List Byte) : List Call :=
  (List.range (ceil16 x.length)).map fun j => (K, BitVec.ofNat 128 (IV.toNat + j))

/-! ### Encrypt and Decrypt (44_aead.md) -/

/-- N' of R88 and R91. -/
def nonceDigest (E : Cipher) (K : Block) (N : List Byte) : Block :=
  digest E K (tagged 0#8 N)

/-- The ciphertext of R88: the counter starts at N'. -/
def ciphertext (E : Cipher) (K : Block) (N P : List Byte) : List Byte :=
  ctrOut E K (nonceDigest E K N) P

/-- `fullTag = N' xor H' xor C'` (R88, R91), given the ciphertext. -/
def fullTag (E : Cipher) (K : Block) (N H C : List Byte) : Block :=
  nonceDigest E K N ^^^ digest E K (tagged 1#8 H) ^^^ digest E K (tagged 2#8 C)

/-- The first `n` bytes of a 16-byte value (R89). -/
def firstBytes (x : Block) (n : Nat) : List Byte :=
  (blockToBytes x).take n

/-- The calls of an Encrypt in the order of its steps (R88). -/
def encCalls (E : Cipher) (K : Block) (N H P : List Byte) : List Call :=
  macCalls E K (tagged 0#8 N) ++ macCalls E K (tagged 1#8 H) ++ ctrCalls K (nonceDigest E K N) P ++
    macCalls E K (tagged 2#8 (ciphertext E K N P))

/-- The calls of the three TaggedMACs of a Decrypt in the order of its steps (R91). -/
def decMacCalls (E : Cipher) (K : Block) (N H C : List Byte) : List Call :=
  macCalls E K (tagged 0#8 N) ++ macCalls E K (tagged 1#8 H) ++ macCalls E K (tagged 2#8 C)

/-! ### What each keyed command leaves, for a 16-byte key (R71, R77, R84, R94, R95, R117) -/

/-- RES and ERR written, TRACE grown, everything else as it was. -/
def withRes (s : State) (x : Block) (e : ErrCode) (cs : List Call) : State :=
  { s with mem := { s.mem with res := x }, err := e, trace := s.trace ++ cs }

/-- DOUT and ERR written, TRACE grown, everything else as it was. -/
def withDout (s : State) (x : List Byte) (e : ErrCode) (cs : List Call) : State :=
  { s with mem := { s.mem with dout := x }, err := e, trace := s.trace ++ cs }

/-- DOUT, TAG and ERR written, TRACE grown, everything else as it was. -/
def withDoutTag (s : State) (x t : List Byte) (e : ErrCode) (cs : List Call) : State :=
  { s with mem := { s.mem with dout := x, tag := t }, err := e, trace := s.trace ++ cs }

/-- MAC of the message `m` (R71, R117). -/
def afterMac (E : Cipher) (m : List Byte) (s : State) : State :=
  let K := keyBlock s.mem.key
  let cs := macCalls E K m
  if anyFails E cs then withRes s 0#128 .blockCipherError (untilFailure E cs)
  else withRes s (digest E K m) .ok cs

/-- CTR (R84, R117). -/
def afterCtr (E : Cipher) (s : State) : State :=
  let K := keyBlock s.mem.key
  let cs := ctrCalls K s.mem.blk s.mem.din
  if anyFails E cs then withDout s [] .blockCipherError (untilFailure E cs)
  else withDout s (ctrOut E K s.mem.blk s.mem.din) .ok cs

/-- ENC with a legal TLEN (R94, R117). -/
def afterEnc (E : Cipher) (s : State) : State :=
  let K := keyBlock s.mem.key
  let cs := encCalls E K s.mem.nonce s.mem.hdr s.mem.din
  let C := ciphertext E K s.mem.nonce s.mem.din
  if anyFails E cs then withDoutTag s [] [] .blockCipherError (untilFailure E cs)
  else withDoutTag s C (firstBytes (fullTag E K s.mem.nonce s.mem.hdr C) s.tlen.toNat) .ok cs

/-- DEC (R95, R93, R115, R117): the three TaggedMACs, the comparison over the received length, and only then the
CounterCipher. -/
def afterDec (E : Cipher) (s : State) : State :=
  let K := keyBlock s.mem.key
  let cs := decMacCalls E K s.mem.nonce s.mem.hdr s.mem.din
  let ks := ctrCalls K (nonceDigest E K s.mem.nonce) s.mem.din
  if anyFails E cs then withDout s [] .blockCipherError (untilFailure E cs)
  else if s.mem.tag ≠ firstBytes (fullTag E K s.mem.nonce s.mem.hdr s.mem.din) s.mem.tag.length then
    withDout s [] .authenticationFailure cs
  else if anyFails E ks then withDout s [] .blockCipherError (cs ++ untilFailure E ks)
  else withDout s (ciphertext E K s.mem.nonce s.mem.din) .ok (cs ++ ks)

end Sys2Proof.Pseudo
end

