-- ==== Sys2Proof/Certificates/Slice0/Obligations.lean ====
section
/-!
DEFINITION. The statements for the provers. OBLIGATIONS.json lists them with the rules of spec/ they come from.
-/

open Sys2Proof Sys2Proof.Machine Sys2Proof.Pseudo

/-! ### Command words (30_encoding.md) -/

/-- Words written out from R48 and R52 decode to the command they stand for, one at least of every family. -/
def Obligations.SpecWordsDecode : Prop :=
  decode 0x00000000#32 = .legal .nop ∧
  decode 0x01500000#32 = .legal (.clr .tag) ∧
  decode 0x020000C0#32 = .legal (.put .key 0xC0#8) ∧
  decode 0x02500001#32 = .legal (.put .tag 0x01#8) ∧
  decode 0x030F0080#32 = .legal (.setb 15#4 0x80#8) ∧
  decode 0x04000010#32 = .legal (.settl 16#8) ∧
  decode 0x0870000F#32 = .legal (.getb .res 15#16) ∧
  decode 0x08400123#32 = .legal (.getb .dout 0x0123#16) ∧
  decode 0x09400000#32 = .legal (.getl .dout) ∧
  decode 0x0A000000#32 = .legal (.getr .status) ∧
  decode 0x10000000#32 = .legal .dbl ∧
  decode 0x11000000#32 = .legal .mac ∧
  decode 0x12000002#32 = .legal (.tmac 2#8) ∧
  decode 0x13000000#32 = .legal .ctr ∧
  decode 0x14000000#32 = .legal .enc ∧
  decode 0x15000000#32 = .legal .dec

/-- The decoder is R49's case analysis, on fields taken out of the word by shift and remainder (R7, R46): for each
command, the words that decode to it. -/
def Obligations.DecodeFollowsTheRule : Prop :=
  ∀ w : Word,
    let op := bits w 31 24
    let sel := bits w 23 20
    let ix4 := bits w 19 16
    let hi := bits w 15 8
    let lo := bits w 7 0
    let rest24 := bits w 23 0
    (decode w = .legal .nop ↔ op = 0x00 ∧ rest24 = 0) ∧
    (∀ buf, decode w = .legal (.clr buf) ↔
      op = 0x01 ∧ ix4 = 0 ∧ hi = 0 ∧ lo = 0 ∧ sel ≤ 5 ∧ sel = selNumber buf) ∧
    (∀ buf imm8, decode w = .legal (.put buf imm8) ↔
      op = 0x02 ∧ ix4 = 0 ∧ hi = 0 ∧ sel ∈ [0, 1, 2, 3, 5] ∧ sel = selNumber buf ∧ lo = imm8.toNat) ∧
    (∀ ix imm8, decode w = .legal (.setb ix imm8) ↔
      op = 0x03 ∧ sel = 0 ∧ hi = 0 ∧ ix4 = ix.toNat ∧ lo = imm8.toNat) ∧
    (∀ imm8, decode w = .legal (.settl imm8) ↔
      op = 0x04 ∧ sel = 0 ∧ ix4 = 0 ∧ hi = 0 ∧ lo = imm8.toNat) ∧
    (∀ buf idx16, decode w = .legal (.getb buf idx16) ↔
      op = 0x08 ∧ ix4 = 0 ∧ 1 ≤ sel ∧ sel ≤ 7 ∧ sel = selNumber buf ∧ hi * 256 + lo = idx16.toNat) ∧
    (∀ buf, decode w = .legal (.getl buf) ↔
      op = 0x09 ∧ ix4 = 0 ∧ hi = 0 ∧ lo = 0 ∧ sel ≤ 7 ∧ sel = selNumber buf) ∧
    (∀ reg, decode w = .legal (.getr reg) ↔
      op = 0x0A ∧ ix4 = 0 ∧ hi = 0 ∧ lo = 0 ∧ sel ≤ 1 ∧ sel = regNumber reg) ∧
    (decode w = .legal .dbl ↔ op = 0x10 ∧ rest24 = 0) ∧
    (decode w = .legal .mac ↔ op = 0x11 ∧ rest24 = 0) ∧
    (∀ t, decode w = .legal (.tmac t) ↔
      op = 0x12 ∧ sel = 0 ∧ ix4 = 0 ∧ hi = 0 ∧ lo ≤ 2 ∧ lo = t.toNat) ∧
    (decode w = .legal .ctr ↔ op = 0x13 ∧ rest24 = 0) ∧
    (decode w = .legal .enc ↔ op = 0x14 ∧ rest24 = 0) ∧
    (decode w = .legal .dec ↔ op = 0x15 ∧ rest24 = 0)

/-- Every well-formed command, with every value of its operands, is read back from its word. -/
def Obligations.DecodeOfEncode : Prop :=
  ∀ i : Instr, i.wellFormed = true → decode (encode i) = .legal i

/-- A legal word is the word of the command it decodes to, and that command is well formed: no command has two words,
and no bit of a word is ignored. -/
def Obligations.EncodeOfDecode : Prop :=
  ∀ (w : Word) (i : Instr), decode w = .legal i → encode i = w ∧ i.wellFormed = true

/-- A legal word lies in its command's row of match and mask, and no word lies in two rows of the table (R48). -/
def Obligations.OpcodeRowsAreDisjoint : Prop :=
  (∀ (w : Word) (i : Instr), decode w = .legal i → rowMatches (tableRow i) w = true) ∧
  (∀ (w : Word) (i j : Instr), rowMatches (tableRow i) w = true → rowMatches (tableRow j) w = true →
    tableRow i = tableRow j)

/-- R50, whole: what an Illegal word does, and the words it lists as Illegal. The two fields of the host's side, whose
form is the model's own (notes/assumptions/1.md and 2.md), move as for every command word. -/
def Obligations.IllegalWordsSetErrOnly : Prop :=
  (∀ (s : State) (w : Word) (rest : List HostMove) (r : IllegalReason),
    s.host = .command w :: rest → decode w = .illegal r →
    step s = .next { s with err := .illegalCommand, cp := s.cp + 1, host := rest }) ∧
  (∀ w : Word, bits w 31 24 ∉ opcodes → (decode w).instr? = none) ∧
  (∀ w : Word, (∀ i : Instr, rowMatches (tableRow i) w = false) → (decode w).instr? = none) ∧
  (∀ w : Word, bits w 31 24 ∈ [0x01, 0x02, 0x08, 0x09] → 8 ≤ bits w 23 20 → (decode w).instr? = none) ∧
  (∀ w : Word, bits w 31 24 = 0x0A → 2 ≤ bits w 23 20 → (decode w).instr? = none) ∧
  (∀ w : Word, bits w 31 24 = 0x01 → bits w 23 20 ∈ [6, 7] → (decode w).instr? = none) ∧
  (∀ w : Word, bits w 31 24 = 0x02 → bits w 23 20 ∈ [4, 6, 7] → (decode w).instr? = none) ∧
  (∀ w : Word, bits w 31 24 = 0x08 → bits w 23 20 = 0 → (decode w).instr? = none) ∧
  (∀ w : Word, bits w 31 24 = 0x12 → 3 ≤ bits w 7 0 → (decode w).instr? = none)

/-! ### Steps, reset and the invariant -/

/-- A step on a legal word runs the decoded command on the state with the host's move used up and its index advanced
by one (R19, R135). -/
def Obligations.StepRunsDecodedCommand : Prop :=
  ∀ (s : State) (w : Word) (rest : List HostMove) (i : Instr),
    s.host = .command w :: rest → decode w = .legal i →
    step s = exec i { s with cp := s.cp + 1, host := rest }

/-- With no host move left, CORE holds its state. That a step then leaves the state as it is is the model's choice
(notes/assumptions/1.md), after R124: CORE "holds its state as long as it is powered". -/
def Obligations.IdleStepHoldsState : Prop :=
  ∀ s : State, s.host = [] → step s = .next s

/-- R24: the values after reset, in `State.reset` and after a step on the reset input, from every state. That the reset
input is a move in a list is the model's own form (notes/assumptions/1.md and 3.md). -/
def Obligations.ResetValues : Prop :=
  (∀ (s : State) (rest : List HostMove), s.host = .reset :: rest →
    ∃ t, step s = .next t ∧
      (∀ sp ∈ [Space.key, .nonce, .hdr, .din, .dout, .tag], spaceLen t.mem sp = 0) ∧
      t.mem.blk.toNat = 0 ∧ t.mem.res.toNat = 0 ∧ (statusWord t).toNat = 0 ∧ t.tlen.toNat = 16 ∧
      t.rdata.toNat = 0 ∧ t.trace = [] ∧ t.cp = 0) ∧
  (∀ sp ∈ [Space.key, .nonce, .hdr, .din, .dout, .tag], spaceLen State.reset.mem sp = 0) ∧
  State.reset.mem.blk.toNat = 0 ∧ State.reset.mem.res.toNat = 0 ∧ (statusWord State.reset).toNat = 0 ∧
  State.reset.tlen.toNat = 16 ∧ State.reset.rdata.toNat = 0 ∧ State.reset.trace = [] ∧ State.reset.cp = 0

/-- The invariant holds at reset. -/
def Obligations.ResetMeetsInvariant : Prop :=
  State.reset.Inv

/-- Every step from a state whose buffers are within their capacities gives such a state (R10). -/
def Obligations.StepKeepsInvariant : Prop :=
  ∀ s t : State, s.Inv → step s = .next t → t.Inv

/-- Every step answers a next state: CORE never stops accepting commands (R135), whatever the host sends. -/
def Obligations.EveryStepAnswers : Prop :=
  ∀ s : State, ∃ t, step s = .next t

/-- The host's index advances by exactly one at every command word, legal or not, and no command changes it otherwise
(R19). -/
def Obligations.HostIndexAdvancesByOne : Prop :=
  (∀ (s t : State) (w : Word) (rest : List HostMove), s.host = .command w :: rest → step s = .next t →
    t.cp = s.cp + 1 ∧ t.host = rest) ∧
  (∀ (i : Instr) (s t : State), exec i s = .next t → t.cp = s.cp ∧ t.host = s.host)

/-! ### The host-access commands (45_host_access.md) -/

/-- R101: NOP leaves every piece of state as it is; the all-zero word is NOP and no other word with its opcode is
legal. -/
def Obligations.NopChangesNothing : Prop :=
  (∀ s : State, exec .nop s = .next s) ∧ encode .nop = 0x00000000#32 ∧
  (∀ w : Word, bits w 31 24 = 0x00 → w ≠ 0x00000000#32 → (decode w).instr? = none)

/-- R102: CLR empties its buffer, sets ERR to OK and changes nothing else; on BLK and RES it is IllegalCommand. -/
def Obligations.ClrEmptiesItsBuffer : Prop :=
  (∀ (s : State) (buf : Space), buf ≠ .blk → buf ≠ .res →
    (encode (.clr buf)).toNat = 0x01000000 + selNumber buf * 2 ^ 20 ∧
    ∃ t, exec (.clr buf) s = .next t ∧ spaceLen t.mem buf = 0 ∧ (∀ i, byteAt t.mem buf i = none) ∧
      t.err = .ok ∧ sameBytesOutside [buf] s t ∧ t.tlen = s.tlen ∧ t.rdata = s.rdata ∧ sameTraceAndHost s t) ∧
  (∀ (s : State) (buf : Space), buf = .blk ∨ buf = .res →
    exec (.clr buf) s = .next { s with err := .illegalCommand }) ∧
  (∀ w : Word, bits w 31 24 = 0x01 → 6 ≤ bits w 23 20 → (decode w).instr? = none)

/-- R103: PUT on a buffer with room writes the byte at the index `buf.len`, the length grows by one and nothing else
changes but ERR; at capacity only ERR changes. -/
def Obligations.PutAppendsOneByte : Prop :=
  (∀ (s : State) (buf : Space) (imm8 : Byte), buf ≠ .dout → buf ≠ .blk → buf ≠ .res →
    (encode (.put buf imm8)).toNat = 0x02000000 + selNumber buf * 2 ^ 20 + imm8.toNat ∧
    if spaceLen s.mem buf = capacity buf then
      exec (.put buf imm8) s = .next { s with err := .bufferFull }
    else
      ∃ t, exec (.put buf imm8) s = .next t ∧ spaceLen t.mem buf = spaceLen s.mem buf + 1 ∧
        byteAt t.mem buf (spaceLen s.mem buf) = some imm8 ∧
        (∀ i, i ≠ spaceLen s.mem buf → byteAt t.mem buf i = byteAt s.mem buf i) ∧
        t.err = .ok ∧ sameBytesOutside [buf] s t ∧ t.tlen = s.tlen ∧ t.rdata = s.rdata ∧ sameTraceAndHost s t) ∧
  (∀ (s : State) (buf : Space) (imm8 : Byte), buf = .dout ∨ buf = .blk ∨ buf = .res →
    exec (.put buf imm8) s = .next { s with err := .illegalCommand }) ∧
  (∀ w : Word, bits w 31 24 = 0x02 → bits w 23 20 ∈ [4, 6, 7, 8, 9, 10, 11, 12, 13, 14, 15] →
    (decode w).instr? = none)

/-- R104: SETB writes the one byte `BLK[ix4]`; the other fifteen bytes, every other space and every other register
but ERR are unchanged. A word with a nonzero `sel` or `hi` is Illegal. -/
def Obligations.SetbWritesOneByte : Prop :=
  (∀ (s : State) (ix4 : BitVec 4) (imm8 : Byte),
    (encode (.setb ix4 imm8)).toNat = 0x03000000 + ix4.toNat * 2 ^ 16 + imm8.toNat ∧
    ∃ t, exec (.setb ix4 imm8) s = .next t ∧ byteAt t.mem .blk ix4.toNat = some imm8 ∧
      (∀ i, i ≠ ix4.toNat → byteAt t.mem .blk i = byteAt s.mem .blk i) ∧
      t.err = .ok ∧ sameBytesOutside [.blk] s t ∧ t.tlen = s.tlen ∧ t.rdata = s.rdata ∧ sameTraceAndHost s t) ∧
  (∀ w : Word, bits w 31 24 = 0x03 → bits w 23 20 ≠ 0 ∨ bits w 15 8 ≠ 0 → (decode w).instr? = none)

/-- R105: SETTL stores any byte in TLEN, sets ERR to OK and changes nothing else; while TLEN holds a value above 16,
every ENC with a 16-byte key fails with InvalidTagLength; DEC ignores TLEN, for every cipher. -/
def Obligations.SettlStoresAnyByte : Prop :=
  ∀ (s : State) (imm8 : Byte),
    (encode (.settl imm8)).toNat = 0x04000000 + imm8.toNat ∧
    ∃ t, exec (.settl imm8) s = .next t ∧ t.tlen = imm8 ∧ t.err = .ok ∧
      sameBytesOutside [] s t ∧ t.rdata = s.rdata ∧ sameTraceAndHost s t ∧
      (16 < imm8.toNat → ∀ u : State, u.tlen = imm8 → u.mem.key.length = 16 →
        ∃ v, exec .enc u = .next v ∧ v.err = .invalidTagLength) ∧
      (∀ E : Cipher, (decCommand E t).mem = (decCommand E s).mem ∧ (decCommand E t).err = (decCommand E s).err)

/-- R106: GETB copies the byte at `buf:idx16`, zero-extended, to RDATA, and 0 at or beyond the length; it changes
RDATA only. KEY cannot be named. -/
def Obligations.GetbReadsByteOrZero : Prop :=
  (∀ (s : State) (buf : Space) (idx16 : BitVec 16), buf ≠ .key →
    (encode (.getb buf idx16)).toNat = 0x08000000 + selNumber buf * 2 ^ 20 + idx16.toNat ∧
    ∃ t, exec (.getb buf idx16) s = .next t ∧
      (idx16.toNat < spaceLen s.mem buf → ∃ b, byteAt s.mem buf idx16.toNat = some b ∧ t.rdata.toNat = b.toNat) ∧
      (spaceLen s.mem buf ≤ idx16.toNat → t.rdata.toNat = 0) ∧
      t.err = s.err ∧ sameBytesOutside [] s t ∧ t.tlen = s.tlen ∧ sameTraceAndHost s t) ∧
  (∀ (s : State) (idx16 : BitVec 16), exec (.getb .key idx16) s = .next { s with err := .illegalCommand }) ∧
  (∀ w : Word, bits w 31 24 = 0x08 → bits w 23 20 = 0 ∨ 8 ≤ bits w 23 20 ∨ bits w 19 16 ≠ 0 →
    (decode w).instr? = none)

/-- R107: GETL copies the length (16 for BLK and RES) to RDATA and changes RDATA only; in a state whose buffers are
within their capacities the value is exact and at most 65535. -/
def Obligations.GetlReadsLength : Prop :=
  (∀ (s : State) (buf : Space),
    (encode (.getl buf)).toNat = 0x09000000 + selNumber buf * 2 ^ 20 ∧
    ∃ t, exec (.getl buf) s = .next t ∧ t.rdata = BitVec.ofNat 32 (spaceLen s.mem buf) ∧
      (buf = .blk ∨ buf = .res → t.rdata.toNat = 16) ∧
      (s.Inv → t.rdata.toNat = spaceLen s.mem buf ∧ t.rdata.toNat ≤ 65535) ∧
      t.err = s.err ∧ sameBytesOutside [] s t ∧ t.tlen = s.tlen ∧ sameTraceAndHost s t) ∧
  (∀ w : Word, bits w 31 24 = 0x09 → 8 ≤ bits w 23 20 ∨ bits w 19 0 ≠ 0 → (decode w).instr? = none)

/-- R108: GETR copies STATUS or TLEN, zero-extended, to RDATA and changes RDATA only; reading STATUS does not clear
ERR. -/
def Obligations.GetrReadsControlRegister : Prop :=
  (∀ (s : State) (reg : CtrlReg),
    (encode (.getr reg)).toNat = 0x0A000000 + regNumber reg * 2 ^ 20 ∧
    ∃ t, exec (.getr reg) s = .next t ∧
      (reg = .status → t.rdata.toNat = codeNumber s.err) ∧ (reg = .tlen → t.rdata.toNat = s.tlen.toNat) ∧
      t.err = s.err ∧ sameBytesOutside [] s t ∧ t.tlen = s.tlen ∧ sameTraceAndHost s t) ∧
  (∀ w : Word, bits w 31 24 = 0x0A → 2 ≤ bits w 23 20 → (decode w).instr? = none)

/-! ### FieldDouble and DBL (40_fielddouble.md) -/

/-- R62 with R60's arithmetic: RES gets the double of BLK, ERR is OK, nothing else changes and no call is made. -/
def Obligations.DblDoublesTheBlockRegister : Prop :=
  ∀ s : State,
    encode .dbl = 0x10000000#32 ∧
    ∃ t, exec .dbl s = .next t ∧
      (let n := s.mem.blk.toNat
       t.mem.res.toNat = if n >>> 127 = 1 then (2 * n % 2 ^ 128) ^^^ 0x87 else 2 * n % 2 ^ 128) ∧
      t.err = .ok ∧ sameBytesOutside [.res] s t ∧ t.tlen = s.tlen ∧ t.rdata = s.rdata ∧ sameTraceAndHost s t

/-- FieldDouble byte by byte, the form the spec derives from R60 in 40_fielddouble.md section 1 (its R61, marked
"derived"). -/
def Obligations.FieldDoubleByBytes : Prop :=
  ∀ x : Block,
    (∀ i, i < 15 → (blockByte (fieldDouble x) i).toNat =
      (((blockByte x i).toNat <<< 1) % 256) ||| ((blockByte x (i + 1)).toNat >>> 7)) ∧
    (blockByte (fieldDouble x) 15).toNat =
      if (blockByte x 0).toNat >>> 7 = 1 then (((blockByte x 15).toNat <<< 1) % 256) ^^^ 0x87
      else ((blockByte x 15).toNat <<< 1) % 256

/-- Facts the spec derives from R60 (its R63, marked "derived"): zero is doubled to zero, doubling is linear over
XOR, and it is a bijection whose inverse is the formula the spec gives. -/
def Obligations.FieldDoubleLinearAndInvertible : Prop :=
  fieldDouble 0#128 = 0#128 ∧
  (∀ x y : Block, fieldDouble (x ^^^ y) = fieldDouble x ^^^ fieldDouble y) ∧
  Function.Bijective fieldDouble ∧
  (∀ x : Block,
    let y := fieldDouble x
    let m := (blockByte y 15).toNat % 2
    m = x.toNat >>> 127 ∧ x.toNat = m * 2 ^ 127 + ((y.toNat ^^^ (0x87 * m)) >>> 1))

/-! ### MAC and TaggedMAC (41_mac.md, 42_taggedmac.md) -/

/-- The padding of R66 alone: the padded message has M's length if that is a positive multiple of 16, else `16 *
(floor(m/16) + 1)` bytes, and they are M's bytes, then 0x80, then zeros. -/
def Obligations.PaddedMessageBytes : Prop :=
  ∀ m : List Byte,
    (padMessage m).length = 16 * blockCount m ∧
    ∀ i, i < 16 * blockCount m → (padMessage m)[i]? = some (paddedByte m i)

/-- R65 to R71: with a 16-byte KEY, MAC is the rule's computation block by block, for every cipher: the digest in RES
or, at the first failing call, RES zeroed; TRACE gains exactly the calls made; nothing else changes. With any other
key length it is InvalidKeyLength without a call. -/
def Obligations.MacCommandFollowsTheRule : Prop :=
  encode .mac = 0x11000000#32 ∧
  ∀ s : State,
    (s.mem.key.length = 16 →
      (∀ E : Cipher, macCommand E s = afterMac E s.mem.din s) ∧
      exec .mac s = .next (afterMac Config.encryptBlock s.mem.din s)) ∧
    (s.mem.key.length ≠ 16 → exec .mac s = .next (withRes s 0#128 .invalidKeyLength []))

/-- R75 to R77: TMAC t for t = 0, 1, 2 is MAC of the message `0^15 t DIN`, with the same errors; for any other t it
is IllegalCommand and RES is not changed. -/
def Obligations.TmacCommandFollowsTheRule : Prop :=
  (∀ (s : State) (t : Byte),
    (encode (.tmac t)).toNat = 0x12000000 + t.toNat ∧
    (t.toNat ≤ 2 → s.mem.key.length = 16 →
      (∀ E : Cipher, tmacCommand E t s = afterMac E (tagged t s.mem.din) s) ∧
      exec (.tmac t) s = .next (afterMac Config.encryptBlock (tagged t s.mem.din) s)) ∧
    (t.toNat ≤ 2 → s.mem.key.length ≠ 16 → exec (.tmac t) s = .next (withRes s 0#128 .invalidKeyLength [])) ∧
    (2 < t.toNat → exec (.tmac t) s = .next { s with err := .illegalCommand })) ∧
  (∀ w : Word, bits w 31 24 = 0x12 → 3 ≤ bits w 7 0 ∨ bits w 23 20 ≠ 0 ∨ bits w 19 16 ≠ 0 ∨ bits w 15 8 ≠ 0 →
    (decode w).instr? = none)

/-- Facts the spec derives from R76 (its R78 (b) to (d), marked "derived"): an error-free TaggedMAC makes `2 +
ceil(m/16)` calls, the first `(K, 0^16)`, the second `(K, Prefix(t))` where the message is not empty and `(K,
Prefix(t) xor B)` where it is. -/
def Obligations.TaggedMacCallSequence : Prop :=
  ∀ (E : Cipher) (K m : List Byte) (t : Byte) (d : Block),
    (taggedMacRun E K t m).result = .ok d →
    (taggedMacRun E K t m).calls.length = 2 + ceil16 m.length ∧
    (taggedMacRun E K t m).calls[0]? = some (keyBlock K, 0#128) ∧
    (taggedMacRun E K t m).calls[1]? = some (keyBlock K,
      if m = [] then t.setWidth 128 ^^^ fieldDouble (answer E (keyBlock K) 0#128) else t.setWidth 128)

/-! ### CounterCipher (43_countercipher.md) -/

/-- R80: Inc128 is plus one modulo 2^128, and is the byte procedure of the rule: from the last byte leftwards, stop
at the first byte that does not wrap to zero. -/
def Obligations.Inc128ByBytes : Prop :=
  ∀ x : Block,
    (inc128 x).toNat = (x.toNat + 1) % 2 ^ 128 ∧
    ∀ i, i < 16 →
      ((∀ j, i < j → j < 16 → (blockByte x j).toNat = 0xFF) →
        (blockByte (inc128 x) i).toNat = ((blockByte x i).toNat + 1) % 256) ∧
      (¬ (∀ j, i < j → j < 16 → (blockByte x j).toNat = 0xFF) →
        (blockByte (inc128 x) i).toNat = (blockByte x i).toNat)

/-- R81, R83 and R84: with a 16-byte KEY, CTR XORs every byte of DIN with the rule's keystream byte, for every
cipher, or, at the first failing call, empties DOUT; TRACE gains exactly the calls made; nothing else changes. With
any other key length it is InvalidKeyLength without a call, also for an empty DIN. -/
def Obligations.CtrCommandFollowsTheRule : Prop :=
  encode .ctr = 0x13000000#32 ∧
  ∀ s : State,
    (s.mem.key.length = 16 →
      (∀ E : Cipher, ctrCommand E s = afterCtr E s) ∧ exec .ctr s = .next (afterCtr Config.encryptBlock s)) ∧
    (s.mem.key.length ≠ 16 → exec .ctr s = .next (withDout s [] .invalidKeyLength []))

/-- R82: with a 16-byte KEY and an empty DIN, CTR gives an empty DOUT and no call is made, whatever E would answer.
-/
def Obligations.CtrOnEmptyDataMakesNoCall : Prop :=
  ∀ s : State, s.mem.key.length = 16 → s.mem.din = [] →
    exec .ctr s = .next { s with mem := { s.mem with dout := [] }, err := .ok }

/-- Facts the spec derives from R81 (its R85 (a) and (b), marked "derived"): the output is as long as the input, and
the transform of the output, which cannot fail, is the input again, for every cipher. -/
def Obligations.CounterCipherSelfInverse : Prop :=
  ∀ (E : Cipher) (K : List Byte) (IV : Block) (x y : List Byte),
    (counterCipherRun E K IV x).result = .ok y →
    y.length = x.length ∧ (counterCipherRun E K IV y).result = .ok x

/-! ### Encrypt and Decrypt (44_aead.md) -/

/-- R92: on sequences of the same length the loop form of CtEq is equality. -/
def Obligations.CtEqIsEquality : Prop :=
  ∀ a b : List Byte, a.length = b.length → (ctEq a b = true ↔ a = b)

/-- R88 to R90 and R94: with a 16-byte KEY and TLEN at most 16, ENC is the rule's computation, for every cipher; at
the first failing call both outputs are emptied; the two checks come before any call, the key's first. -/
def Obligations.EncCommandFollowsTheRule : Prop :=
  encode .enc = 0x14000000#32 ∧
  ∀ s : State,
    (s.mem.key.length = 16 → s.tlen.toNat ≤ 16 →
      (∀ E : Cipher, encCommand E s = afterEnc E s) ∧ exec .enc s = .next (afterEnc Config.encryptBlock s)) ∧
    (s.mem.key.length = 16 → 16 < s.tlen.toNat → exec .enc s = .next (withDoutTag s [] [] .invalidTagLength [])) ∧
    (s.mem.key.length ≠ 16 → exec .enc s = .next (withDoutTag s [] [] .invalidKeyLength []))

/-- R91, R93 and R95: with a 16-byte KEY and a tag of at most 16 bytes (TAG holds no more, R11), DEC is the rule's
computation, for every cipher: the three TaggedMACs, then the comparison over the received length, and only then the
CounterCipher; on every error DOUT is emptied and TAG is unchanged. -/
def Obligations.DecCommandFollowsTheRule : Prop :=
  encode .dec = 0x15000000#32 ∧
  ∀ s : State,
    (s.mem.key.length = 16 → s.mem.tag.length ≤ 16 →
      (∀ E : Cipher, decCommand E s = afterDec E s) ∧ exec .dec s = .next (afterDec Config.encryptBlock s)) ∧
    (s.mem.key.length ≠ 16 → exec .dec s = .next (withDout s [] .invalidKeyLength []))

/-- Facts the spec derives from R88 and R91 (its R96, marked "derived"): lengths are preserved, Decrypt gives back
what Encrypt took, presenting no pair to E that Encrypt did not present, and an empty tag never fails authentication;
for every cipher, permutation or not. -/
def Obligations.EncryptThenDecryptRoundTrip : Prop :=
  (∀ (E : Cipher) (K N H P C T : List Byte) (tl : Nat),
    (encryptRun E K N H P tl).result = .ok (C, T) →
    C.length = P.length ∧ T.length = tl ∧ (decryptRun E K N H C T).result = .ok P ∧
    ∀ c ∈ (decryptRun E K N H C T).calls, c ∈ (encryptRun E K N H P tl).calls) ∧
  (∀ (E : Cipher) (K N H C : List Byte), (decryptRun E K N H C []).result ≠ .error .authenticationFailure)

/-- R93 and R95 on the state, for every cipher: DEC leaves a byte in DOUT only if it ended with ERR = OK, and it ends
so only if the received tag is the prefix of the expected full tag. -/
def Obligations.NoPlaintextWithoutVerifiedTag : Prop :=
  ∀ (E : Cipher) (s : State),
    ((decCommand E s).mem.dout ≠ [] → (decCommand E s).err = .ok) ∧
    ((decCommand E s).err = .ok →
      s.mem.tag = firstBytes (fullTag E (keyBlock s.mem.key) s.mem.nonce s.mem.hdr s.mem.din) s.mem.tag.length)

/-- R93: on a mismatch the only outputs are ERR = 3 and an empty DOUT, and the calls are those of the three
TaggedMACs: no call of the CounterCipher is made. -/
def Obligations.TagMismatchReleasesNothing : Prop :=
  ∀ (E : Cipher) (s : State), (decCommand E s).err = .authenticationFailure →
    decCommand E s = { s with
      mem := { s.mem with dout := [] }, err := .authenticationFailure,
      trace := s.trace ++ decMacCalls E (keyBlock s.mem.key) s.mem.nonce s.mem.hdr s.mem.din }

/-- The one tamper case the spec calls a theorem (44_aead.md section 3, R98): a tag of the same length that differs
from Encrypt's is rejected. -/
def Obligations.ChangedTagIsRejected : Prop :=
  ∀ (E : Cipher) (K N H P C T T' : List Byte) (tl : Nat),
    (encryptRun E K N H P tl).result = .ok (C, T) → T'.length = T.length → T' ≠ T →
    (decryptRun E K N H C T').result = .error .authenticationFailure

/-- What the spec derives in R97 and R137 for a model without time: two failing verifications of the same inputs
against different tags make the same calls and leave states that differ in TAG alone. -/
def Obligations.FailingDecDoesNotDependOnTag : Prop :=
  ∀ (E : Cipher) (s : State) (T T' : List Byte),
    let d := decCommand E { s with mem := { s.mem with tag := T } }
    let d' := decCommand E { s with mem := { s.mem with tag := T' } }
    d.err = .authenticationFailure → d'.err = .authenticationFailure →
    d.trace = d'.trace ∧ { d with mem := { d.mem with tag := T' } } = d'

/-- What the spec derives from R91 in its R116: a DEC in which a call of the three TaggedMACs fails reports
BlockCipherError whatever the tag is. -/
def Obligations.CipherErrorBeforeAuthentication : Prop :=
  ∀ (E : Cipher) (s : State) (T : List Byte), s.mem.key.length = 16 →
    anyFails E (decMacCalls E (keyBlock s.mem.key) s.mem.nonce s.mem.hdr s.mem.din) = true →
    (decCommand E { s with mem := { s.mem with tag := T } }).err = .blockCipherError

/-! ### Rules about all commands -/

/-- R114: the codes each command can end with. -/
def Obligations.PossibleResultCodes : Prop :=
  ∀ (i : Instr) (s t : State), exec i s = .next t →
    if i.wellFormed = true then
      match i with
      | .nop => t.err = s.err
      | .getb _ _ => t.err = s.err
      | .getl _ => t.err = s.err
      | .getr _ => t.err = s.err
      | .clr _ => t.err = .ok
      | .setb _ _ => t.err = .ok
      | .settl _ => t.err = .ok
      | .dbl => t.err = .ok
      | .put _ _ => t.err ∈ [ErrCode.ok, .bufferFull]
      | .mac => t.err ∈ [ErrCode.ok, .invalidKeyLength, .blockCipherError]
      | .tmac _ => t.err ∈ [ErrCode.ok, .invalidKeyLength, .blockCipherError]
      | .ctr => t.err ∈ [ErrCode.ok, .invalidKeyLength, .blockCipherError]
      | .enc => t.err ∈ [ErrCode.ok, .invalidKeyLength, .invalidTagLength, .blockCipherError]
      | .dec => t.err ∈ [ErrCode.ok, .invalidKeyLength, .authenticationFailure, .blockCipherError]
    else t.err = .illegalCommand

/-- R117: a command that ends with a nonzero code has no effect but the one the rule's table gives. -/
def Obligations.ErrorEffects : Prop :=
  (∀ (i : Instr) (s : State), i.wellFormed = false → exec i s = .next { s with err := .illegalCommand }) ∧
  (∀ (s t : State) (buf : Space) (imm8 : Byte), buf.puttable = true → exec (.put buf imm8) s = .next t →
    t.err ≠ .ok → t = { s with err := .bufferFull }) ∧
  (∀ (i : Instr) (s t : State), i = .mac ∨ (∃ d, i = .tmac d ∧ d.toNat ≤ 2) → exec i s = .next t → t.err ≠ .ok →
    t.err ∈ [ErrCode.invalidKeyLength, .blockCipherError] ∧
    ∃ cs, t = { s with mem := { s.mem with res := 0#128 }, err := t.err, trace := s.trace ++ cs }) ∧
  (∀ s t : State, exec .ctr s = .next t → t.err ≠ .ok →
    t.err ∈ [ErrCode.invalidKeyLength, .blockCipherError] ∧
    ∃ cs, t = { s with mem := { s.mem with dout := [] }, err := t.err, trace := s.trace ++ cs }) ∧
  (∀ s t : State, exec .enc s = .next t → t.err ≠ .ok →
    t.err ∈ [ErrCode.invalidKeyLength, .invalidTagLength, .blockCipherError] ∧
    ∃ cs, t = { s with mem := { s.mem with dout := [], tag := [] }, err := t.err, trace := s.trace ++ cs }) ∧
  (∀ s t : State, exec .dec s = .next t → t.err ≠ .ok →
    t.err ∈ [ErrCode.invalidKeyLength, .authenticationFailure, .blockCipherError] ∧
    ∃ cs, t = { s with mem := { s.mem with dout := [] }, err := t.err, trace := s.trace ++ cs })

/-- R15: no operation command changes KEY, NONCE, HDR, DIN or BLK, on success or on error, and DEC leaves TAG
unchanged too. -/
def Obligations.OperationsKeepTheirInputs : Prop :=
  ∀ (i : Instr) (s t : State), exec i s = .next t →
    i ∈ [Instr.dbl, .mac, .ctr, .enc, .dec] ∨ (∃ d, i = .tmac d) →
    sameBytesOutside [.dout, .tag, .res] s t ∧
    (i = .dec → ∀ j, byteAt t.mem .tag j = byteAt s.mem .tag j)

/-- Who may write what (R11 to R14, R17, R18): a command that is not listed for a piece of state leaves it as it was.
-/
def Obligations.OnlyItsWritersChangeAPiece : Prop :=
  ∀ (i : Instr) (s t : State), exec i s = .next t →
    ((∀ v, i ≠ .clr .key ∧ i ≠ .put .key v) → t.mem.key = s.mem.key) ∧
    ((∀ v, i ≠ .clr .nonce ∧ i ≠ .put .nonce v) → t.mem.nonce = s.mem.nonce) ∧
    ((∀ v, i ≠ .clr .hdr ∧ i ≠ .put .hdr v) → t.mem.hdr = s.mem.hdr) ∧
    ((∀ v, i ≠ .clr .din ∧ i ≠ .put .din v) → t.mem.din = s.mem.din) ∧
    (i ∉ [Instr.clr .dout, .ctr, .enc, .dec] → t.mem.dout = s.mem.dout) ∧
    ((∀ v, i ≠ .clr .tag ∧ i ≠ .put .tag v ∧ i ≠ .enc) → t.mem.tag = s.mem.tag) ∧
    ((∀ ix v, i ≠ .setb ix v) → t.mem.blk = s.mem.blk) ∧
    ((∀ d, i ≠ .dbl ∧ i ≠ .mac ∧ i ≠ .tmac d) → t.mem.res = s.mem.res) ∧
    ((∀ v, i ≠ .settl v) → t.tlen = s.tlen) ∧
    ((∀ sp j r, i ≠ .getb sp j ∧ i ≠ .getl sp ∧ i ≠ .getr r) → t.rdata = s.rdata)

/-- 20_memory.md section 3 (R35, its second half marked "derived"): the observing commands change RDATA alone and can
be repeated with the same result, and every command but PUT executed twice in a row leaves the same state as once,
except for the growth of TRACE. -/
def Obligations.RepeatingACommand : Prop :=
  (∀ (i : Instr) (s t : State), (∃ sp j r, i = .getb sp j ∨ i = .getl sp ∨ i = .getr r) → i.wellFormed = true →
    exec i s = .next t → t = { s with rdata := t.rdata } ∧ exec i t = .next t) ∧
  (∀ (i : Instr) (s t u : State), (∀ sp v, i ≠ .put sp v) → exec i s = .next t → exec i t = .next u →
    { u with trace := t.trace } = t)

/-- R41 and R117: the calls a command adds to TRACE all carry the 16-byte KEY, are made only with such a key, and each
but the last is answered with a block; where the command made a call, one failed exactly when ERR is BlockCipherError
after it. -/
def Obligations.CipherPortDiscipline : Prop :=
  ∀ (i : Instr) (s t : State), exec i s = .next t →
    ∃ cs, t.trace = s.trace ++ cs ∧
      (cs ≠ [] → s.mem.key.length = 16) ∧
      (∀ c ∈ cs, blockToBytes c.1 = s.mem.key) ∧
      (∀ c ∈ cs.dropLast, fails Config.encryptBlock c = false) ∧
      (cs ≠ [] → (anyFails Config.encryptBlock cs = true ↔ t.err = .blockCipherError))

/-- The counts the spec derives in its R138 (70_reset_and_hazards.md section 4): the counts of calls on the cipher
port of an error-free command, of a DEC that fails authentication, and of the commands that make none. -/
def Obligations.CipherCallCounts : Prop :=
  ∀ (E : Cipher) (s : State),
    let added (t : State) := t.trace.length - s.trace.length
    let b (sp : Space) := ceil16 (spaceLen s.mem sp)
    ((macCommand E s).err = .ok → added (macCommand E s) = 1 + max 1 (b .din)) ∧
    (∀ t : Byte, (tmacCommand E t s).err = .ok → added (tmacCommand E t s) = 2 + b .din) ∧
    ((ctrCommand E s).err = .ok → added (ctrCommand E s) = b .din) ∧
    ((encCommand E s).err = .ok → added (encCommand E s) = 6 + b .nonce + b .hdr + 2 * b .din) ∧
    ((decCommand E s).err = .ok → added (decCommand E s) = 6 + b .nonce + b .hdr + 2 * b .din) ∧
    ((decCommand E s).err = .authenticationFailure → added (decCommand E s) = 6 + b .nonce + b .hdr + b .din) ∧
    (s.mem.key.length ≠ 16 →
      (macCommand E s).trace = s.trace ∧ (∀ t : Byte, (tmacCommand E t s).trace = s.trace) ∧
      (ctrCommand E s).trace = s.trace ∧ (encCommand E s).trace = s.trace ∧ (decCommand E s).trace = s.trace) ∧
    (16 < s.tlen.toNat → (encCommand E s).trace = s.trace) ∧
    (∀ (i : Instr) (u : State), i ∉ [Instr.mac, .tmac 0#8, .tmac 1#8, .tmac 2#8, .ctr, .enc, .dec] →
      exec i s = .next u → u.trace = s.trace)

/-- R12 as a claim about two runs: what a host-access command or DBL does, RDATA and ERR included, does not depend on
the bytes of KEY. -/
def Obligations.KeyBytesDoNotReachTheHost : Prop :=
  ∀ (i : Instr) (s s' t : State),
    i ∉ [Instr.mac, .tmac 0#8, .tmac 1#8, .tmac 2#8, .ctr, .enc, .dec] →
    agreeButKeyBytes s s' → exec i s = .next t →
    ∃ t', exec i s' = .next t' ∧ agreeButKeyBytes t t'

/-- R21, R22 and the resolution of conflict C5: an operation command's results are a function of the inputs its rule
names and of nothing an earlier command left behind; DEC does not read TLEN. -/
def Obligations.ResultsDependOnInputsOnly : Prop :=
  ∀ (E : Cipher) (s s' : State),
    (s.mem.key = s'.mem.key → s.mem.din = s'.mem.din →
      (macCommand E s).mem.res = (macCommand E s').mem.res ∧ (macCommand E s).err = (macCommand E s').err ∧
      (∀ t : Byte, (tmacCommand E t s).mem.res = (tmacCommand E t s').mem.res ∧
        (tmacCommand E t s).err = (tmacCommand E t s').err)) ∧
    (s.mem.key = s'.mem.key → s.mem.blk = s'.mem.blk → s.mem.din = s'.mem.din →
      (ctrCommand E s).mem.dout = (ctrCommand E s').mem.dout ∧ (ctrCommand E s).err = (ctrCommand E s').err) ∧
    (s.mem.key = s'.mem.key → s.mem.nonce = s'.mem.nonce → s.mem.hdr = s'.mem.hdr → s.mem.din = s'.mem.din →
      s.tlen = s'.tlen →
      (encCommand E s).mem.dout = (encCommand E s').mem.dout ∧ (encCommand E s).mem.tag = (encCommand E s').mem.tag ∧
      (encCommand E s).err = (encCommand E s').err) ∧
    (s.mem.key = s'.mem.key → s.mem.nonce = s'.mem.nonce → s.mem.hdr = s'.mem.hdr → s.mem.din = s'.mem.din →
      s.mem.tag = s'.mem.tag →
      (decCommand E s).mem.dout = (decCommand E s').mem.dout ∧ (decCommand E s).err = (decCommand E s').err)

/-- R20 and R41: no command's behaviour depends on ERR, on RDATA or on TRACE, but for what GETR STATUS copies to
RDATA. Two runs from states that differ in these three alone leave the same spaces and the same TLEN, make the same
calls, and write the same ERR and RDATA or leave both as they were. -/
def Obligations.NoCommandDependsOnErrOrTrace : Prop :=
  ∀ (i : Instr) (s t : State) (e : ErrCode) (v : Word) (cs : List Call), exec i s = .next t →
    ∃ u, exec i { s with err := e, rdata := v, trace := cs } = .next u ∧ u.mem = t.mem ∧ u.tlen = t.tlen ∧
      (∃ ds, t.trace = s.trace ++ ds ∧ u.trace = cs ++ ds) ∧
      (u.err = t.err ∨ (t.err = s.err ∧ u.err = e)) ∧
      (i ≠ .getr .status → u.rdata = t.rdata ∨ (t.rdata = s.rdata ∧ u.rdata = v)) ∧
      (i = .getr .status → u.rdata.toNat = codeNumber e)

/-- 70_reset_and_hazards.md section 2 (in R129): straight after reset every keyed command answers InvalidKeyLength.
-/
def Obligations.NoKeyAfterReset : Prop :=
  ∀ i : Instr, i ∈ [Instr.mac, .tmac 0#8, .tmac 1#8, .tmac 2#8, .ctr, .enc, .dec] →
    ∃ t, exec i State.reset = .next t ∧ t.err = .invalidKeyLength ∧ t.trace = []

/-- The fact about LOAD that 30_encoding.md section 5 derives from R102 and R103: from every state in which the
host's next words are CLR of a buffer and one PUT for each byte of X, with X within the capacity, those steps leave
the buffer holding exactly X and ERR = OK, and every other space as it was. -/
def Obligations.LoadLeavesExactlyItsBytes : Prop :=
  ∀ (s : State) (buf : Space) (x : List Byte) (rest : List HostMove),
    buf.puttable = true → x.length ≤ capacity buf →
    s.host = (HostMove.command (encode (.clr buf)) :: x.map fun b => .command (encode (.put buf b))) ++ rest →
    ∃ t, steps (x.length + 1) s = .next t ∧ spaceBytes t.mem buf = x ∧ t.err = .ok ∧
      sameBytesOutside [buf] s t ∧ t.tlen = s.tlen ∧ t.rdata = s.rdata ∧ t.trace = s.trace ∧ t.host = rest ∧
      t.cp = s.cp + (x.length + 1)
end

