-- ==== Sys2Proof/Laws/Blocks.lean ====
section
/-!
SUPPORT. The bytes of a block and its number (00_scope.md R7): what each operand form of Machine/Operands.lean does.
-/

namespace Sys2Proof.Machine

@[simp] theorem blockToBytes_length (x : Block) : (blockToBytes x).length = 16 := by
  simp [blockToBytes]

/-- Bit `k` of byte `i` is bit `8 * (15 - i) + k` of the block. -/
theorem blockByte_getLsbD (x : Block) (i k : Nat) :
    (blockByte x i).getLsbD k = (decide (k < 8) && x.getLsbD (8 * (15 - i) + k)) := by
  simp [blockByte]

/-- Byte `i` of a block in its sequence of bytes, none from index 16 on. -/
theorem blockToBytes_getElem? (x : Block) (i : Nat) :
    (blockToBytes x)[i]? = if i < 16 then some (blockByte x i) else none := by
  unfold blockToBytes
  split
  · next h => simp [h]
  · next h => simp [h]

theorem blockToBytes_getElem (x : Block) (i : Nat) (h : i < (blockToBytes x).length) :
    (blockToBytes x)[i] = blockByte x i := by
  simp [blockToBytes]

/-- A block is known by its sixteen bytes. -/
theorem block_ext {x y : Block} (h : ∀ i < 16, blockByte x i = blockByte y i) : x = y := by
  apply BitVec.eq_of_getLsbD_eq
  intro b hb
  have hk : (blockByte x (15 - b / 8)).getLsbD (b % 8) = (blockByte y (15 - b / 8)).getLsbD (b % 8) := by
    rw [h _ (by omega)]
  rw [blockByte_getLsbD, blockByte_getLsbD] at hk
  have e : 8 * (15 - (15 - b / 8)) + b % 8 = b := by omega
  have l : b % 8 < 8 := Nat.mod_lt _ (by decide)
  simpa [e, l] using hk

/-- XOR of blocks is byte-wise (R7). -/
@[simp] theorem blockByte_xor (x y : Block) (i : Nat) :
    blockByte (x ^^^ y) i = blockByte x i ^^^ blockByte y i := by
  simp [blockByte, BitVec.extractLsb'_xor]

theorem getLsbD_ff (k : Nat) : (0xFF#128).getLsbD k = decide (k < 8) := by
  by_cases h : k < 128
  · have : ∀ j < 128, (0xFF#128).getLsbD j = decide (j < 8) := by decide
    exact this k h
  · rw [BitVec.getLsbD_of_ge _ _ (by omega)]
    simp only [Bool.false_eq, decide_eq_false_iff_not]
    omega

/-- Writing byte `i` of a block: byte `i` reads as written, the others as before (R104). -/
theorem blockByte_setByte (x : Block) (v : Byte) {i j : Nat} (hi : i < 16) (hj : j < 16) :
    blockByte (blockSetByte x i v) j = if j = i then v else blockByte x j := by
  apply BitVec.eq_of_getLsbD_eq
  intro k hk
  simp only [blockByte, blockSetByte, BitVec.getLsbD_extractLsb', BitVec.getLsbD_or, BitVec.getLsbD_and,
    BitVec.getLsbD_not, BitVec.getLsbD_shiftLeft, BitVec.getLsbD_setWidth, getLsbD_ff, hk, decide_true,
    Bool.true_and, show 8 * (15 - j) + k < 128 by omega]
  split
  · next h =>
    subst h
    simp [hk, show k < 128 by omega]
  · next h =>
    simp only [BitVec.getLsbD_extractLsb', hk, decide_true, Bool.true_and]
    rcases Nat.lt_or_ge (8 * (15 - j) + k) (8 * (15 - i)) with h1 | h1
    · simp [h1]
    · have h2 : 8 ≤ 8 * (15 - j) + k - 8 * (15 - i) := by omega
      rw [BitVec.getLsbD_of_ge v _ h2]
      simp [show ¬ (8 * (15 - j) + k - 8 * (15 - i) < 8) by omega]

/-- The bits of the number a sequence of bytes is folded into. -/
theorem foldBytes_getLsbD (bs : List Byte) (acc : Block) (b : Nat) (hb : b < 128) :
    (bs.foldl pushByte acc).getLsbD b =
      if b < 8 * bs.length then (bs[bs.length - 1 - b / 8]?.getD 0#8).getLsbD (b % 8)
      else acc.getLsbD (b - 8 * bs.length) := by
  induction bs generalizing acc with
  | nil => simp
  | cons a t ih =>
    rw [List.foldl_cons, ih]
    by_cases h1 : b < 8 * t.length
    · have h2 : b < 8 * (a :: t).length := by simp; omega
      rw [if_pos h1, if_pos h2]
      have e : (a :: t).length - 1 - b / 8 = (t.length - 1 - b / 8) + 1 := by
        simp only [List.length_cons]; omega
      rw [e, List.getElem?_cons_succ]
    · rw [if_neg h1]
      by_cases h2 : b < 8 * (a :: t).length
      · rw [if_pos h2]
        simp only [List.length_cons] at h2
        have e : (a :: t).length - 1 - b / 8 = 0 := by simp only [List.length_cons]; omega
        have e2 : b - 8 * t.length = b % 8 := by omega
        rw [e, e2]
        have : b % 8 < 8 := Nat.mod_lt _ (by decide)
        have h128 : b % 8 < 128 := by omega
        simp [pushByte, this, h128]
      · rw [if_neg h2]
        simp only [List.length_cons] at h2
        have h8 : ¬ b - 8 * t.length < 8 := by omega
        have h128 : b - 8 * t.length < 128 := by omega
        rw [pushByte, BitVec.getLsbD_or, BitVec.getLsbD_setWidth, BitVec.getLsbD_of_ge a _ (by omega)]
        simp [h8, h128]
        congr 1

/-- Byte `i` of the block of sixteen bytes is the byte at index `i` (R7: `blk` and `int` are inverse). -/
theorem blockByte_ofBytes {bs : List Byte} (h : bs.length = 16) {i : Nat} (hi : i < 16) :
    blockByte (blockOfBytes bs) i = bs[i]?.getD 0#8 := by
  apply BitVec.eq_of_getLsbD_eq
  intro k hk
  rw [blockByte_getLsbD, blockOfBytes, foldBytes_getLsbD _ _ _ (by omega), h, if_pos (by omega)]
  have e1 : 16 - 1 - (8 * (15 - i) + k) / 8 = i := by omega
  have e2 : (8 * (15 - i) + k) % 8 = k := by omega
  simp [e1, e2, hk]

/-- The bytes of a block, made into a block again. -/
@[simp] theorem blockOfBytes_toBytes (x : Block) : blockOfBytes (blockToBytes x) = x := by
  apply block_ext
  intro i hi
  rw [blockByte_ofBytes (blockToBytes_length x) hi, blockToBytes_getElem?, if_pos hi, Option.getD_some]

/-- Sixteen bytes, made into a block, read back as they were. -/
theorem blockToBytes_ofBytes {bs : List Byte} (h : bs.length = 16) : blockToBytes (blockOfBytes bs) = bs := by
  apply List.ext_getElem?
  intro i
  rw [blockToBytes_getElem?]
  split
  · next hi => rw [blockByte_ofBytes h hi, List.getElem?_eq_getElem (by omega), Option.getD_some]
  · next hi => rw [List.getElem?_eq_none (by omega)]

/-- Zero bytes everywhere. -/
@[simp] theorem blockByte_zero (i : Nat) : blockByte 0#128 i = 0#8 := by
  apply BitVec.eq_of_getLsbD_eq
  intro k hk
  simp [blockByte_getLsbD]

/-- The length GETL reports is the number of bytes of the space (R107). -/
theorem spaceLen_eq (m : Memory) (sp : Space) : spaceLen m sp = (spaceBytes m sp).length := by
  cases sp <;> simp [spaceLen, spaceBytes]

/-- A byte exists exactly below the length (R10). -/
theorem byteAt_isSome_iff (m : Memory) (sp : Space) (i : Nat) : (byteAt m sp i).isSome ↔ i < spaceLen m sp := by
  rw [byteAt, spaceLen_eq]
  simp

/-- At or beyond the length GETB reads 0 (R106). -/
theorem readByte_of_le {m : Memory} {sp : Space} {i : Nat} (h : spaceLen m sp ≤ i) : readByte m sp i = 0#8 := by
  rw [spaceLen_eq] at h
  simp [readByte, byteAt, List.getElem?_eq_none h]

end Sys2Proof.Machine
end

