-- ==== Sys2Proof/Laws/State.lean ====
section
/-!
SUPPORT. One lemma per field of State and per update of it, true by rfl, so that no proof unfolds a record update.
-/

namespace Sys2Proof.Machine


/-! ### setErr -/

@[simp] theorem setErr_mem (s : State) (e : ErrCode) : (setErr s e).mem = s.mem := rfl
@[simp] theorem setErr_err (s : State) (e : ErrCode) : (setErr s e).err = e := rfl
@[simp] theorem setErr_tlen (s : State) (e : ErrCode) : (setErr s e).tlen = s.tlen := rfl
@[simp] theorem setErr_rdata (s : State) (e : ErrCode) : (setErr s e).rdata = s.rdata := rfl
@[simp] theorem setErr_trace (s : State) (e : ErrCode) : (setErr s e).trace = s.trace := rfl
@[simp] theorem setErr_cp (s : State) (e : ErrCode) : (setErr s e).cp = s.cp := rfl
@[simp] theorem setErr_host (s : State) (e : ErrCode) : (setErr s e).host = s.host := rfl

/-! ### endWithBuf -/

@[simp] theorem endWithBuf_mem (s : State) (b : Buf) (x : List Byte) (e : ErrCode) : (endWithBuf s b x e).mem = setBuf s.mem b x := rfl
@[simp] theorem endWithBuf_err (s : State) (b : Buf) (x : List Byte) (e : ErrCode) : (endWithBuf s b x e).err = e := rfl
@[simp] theorem endWithBuf_tlen (s : State) (b : Buf) (x : List Byte) (e : ErrCode) : (endWithBuf s b x e).tlen = s.tlen := rfl
@[simp] theorem endWithBuf_rdata (s : State) (b : Buf) (x : List Byte) (e : ErrCode) : (endWithBuf s b x e).rdata = s.rdata := rfl
@[simp] theorem endWithBuf_trace (s : State) (b : Buf) (x : List Byte) (e : ErrCode) : (endWithBuf s b x e).trace = s.trace := rfl
@[simp] theorem endWithBuf_cp (s : State) (b : Buf) (x : List Byte) (e : ErrCode) : (endWithBuf s b x e).cp = s.cp := rfl
@[simp] theorem endWithBuf_host (s : State) (b : Buf) (x : List Byte) (e : ErrCode) : (endWithBuf s b x e).host = s.host := rfl

/-! ### endWithRdata -/

@[simp] theorem endWithRdata_mem (s : State) (v : Word) : (endWithRdata s v).mem = s.mem := rfl
@[simp] theorem endWithRdata_err (s : State) (v : Word) : (endWithRdata s v).err = s.err := rfl
@[simp] theorem endWithRdata_tlen (s : State) (v : Word) : (endWithRdata s v).tlen = s.tlen := rfl
@[simp] theorem endWithRdata_rdata (s : State) (v : Word) : (endWithRdata s v).rdata = v := rfl
@[simp] theorem endWithRdata_trace (s : State) (v : Word) : (endWithRdata s v).trace = s.trace := rfl
@[simp] theorem endWithRdata_cp (s : State) (v : Word) : (endWithRdata s v).cp = s.cp := rfl
@[simp] theorem endWithRdata_host (s : State) (v : Word) : (endWithRdata s v).host = s.host := rfl

/-! ### endWithBlk -/

@[simp] theorem endWithBlk_mem (s : State) (x : Block) : (endWithBlk s x).mem = { s.mem with blk := x } := rfl
@[simp] theorem endWithBlk_err (s : State) (x : Block) : (endWithBlk s x).err = .ok := rfl
@[simp] theorem endWithBlk_tlen (s : State) (x : Block) : (endWithBlk s x).tlen = s.tlen := rfl
@[simp] theorem endWithBlk_rdata (s : State) (x : Block) : (endWithBlk s x).rdata = s.rdata := rfl
@[simp] theorem endWithBlk_trace (s : State) (x : Block) : (endWithBlk s x).trace = s.trace := rfl
@[simp] theorem endWithBlk_cp (s : State) (x : Block) : (endWithBlk s x).cp = s.cp := rfl
@[simp] theorem endWithBlk_host (s : State) (x : Block) : (endWithBlk s x).host = s.host := rfl

/-! ### endWithRes -/

@[simp] theorem endWithRes_mem (s : State) (x : Block) (e : ErrCode) : (endWithRes s x e).mem = { s.mem with res := x } := rfl
@[simp] theorem endWithRes_err (s : State) (x : Block) (e : ErrCode) : (endWithRes s x e).err = e := rfl
@[simp] theorem endWithRes_tlen (s : State) (x : Block) (e : ErrCode) : (endWithRes s x e).tlen = s.tlen := rfl
@[simp] theorem endWithRes_rdata (s : State) (x : Block) (e : ErrCode) : (endWithRes s x e).rdata = s.rdata := rfl
@[simp] theorem endWithRes_trace (s : State) (x : Block) (e : ErrCode) : (endWithRes s x e).trace = s.trace := rfl
@[simp] theorem endWithRes_cp (s : State) (x : Block) (e : ErrCode) : (endWithRes s x e).cp = s.cp := rfl
@[simp] theorem endWithRes_host (s : State) (x : Block) (e : ErrCode) : (endWithRes s x e).host = s.host := rfl

/-! ### endWithDout -/

@[simp] theorem endWithDout_mem (s : State) (x : List Byte) (e : ErrCode) : (endWithDout s x e).mem = { s.mem with dout := x } := rfl
@[simp] theorem endWithDout_err (s : State) (x : List Byte) (e : ErrCode) : (endWithDout s x e).err = e := rfl
@[simp] theorem endWithDout_tlen (s : State) (x : List Byte) (e : ErrCode) : (endWithDout s x e).tlen = s.tlen := rfl
@[simp] theorem endWithDout_rdata (s : State) (x : List Byte) (e : ErrCode) : (endWithDout s x e).rdata = s.rdata := rfl
@[simp] theorem endWithDout_trace (s : State) (x : List Byte) (e : ErrCode) : (endWithDout s x e).trace = s.trace := rfl
@[simp] theorem endWithDout_cp (s : State) (x : List Byte) (e : ErrCode) : (endWithDout s x e).cp = s.cp := rfl
@[simp] theorem endWithDout_host (s : State) (x : List Byte) (e : ErrCode) : (endWithDout s x e).host = s.host := rfl

/-! ### endWithDoutTag -/

@[simp] theorem endWithDoutTag_mem (s : State) (x t : List Byte) (e : ErrCode) : (endWithDoutTag s x t e).mem = { s.mem with dout := x, tag := t } := rfl
@[simp] theorem endWithDoutTag_err (s : State) (x t : List Byte) (e : ErrCode) : (endWithDoutTag s x t e).err = e := rfl
@[simp] theorem endWithDoutTag_tlen (s : State) (x t : List Byte) (e : ErrCode) : (endWithDoutTag s x t e).tlen = s.tlen := rfl
@[simp] theorem endWithDoutTag_rdata (s : State) (x t : List Byte) (e : ErrCode) : (endWithDoutTag s x t e).rdata = s.rdata := rfl
@[simp] theorem endWithDoutTag_trace (s : State) (x t : List Byte) (e : ErrCode) : (endWithDoutTag s x t e).trace = s.trace := rfl
@[simp] theorem endWithDoutTag_cp (s : State) (x t : List Byte) (e : ErrCode) : (endWithDoutTag s x t e).cp = s.cp := rfl
@[simp] theorem endWithDoutTag_host (s : State) (x t : List Byte) (e : ErrCode) : (endWithDoutTag s x t e).host = s.host := rfl

/-! ### appendTrace -/

@[simp] theorem appendTrace_mem (s : State) (cs : List Call) : (appendTrace s cs).mem = s.mem := rfl
@[simp] theorem appendTrace_err (s : State) (cs : List Call) : (appendTrace s cs).err = s.err := rfl
@[simp] theorem appendTrace_tlen (s : State) (cs : List Call) : (appendTrace s cs).tlen = s.tlen := rfl
@[simp] theorem appendTrace_rdata (s : State) (cs : List Call) : (appendTrace s cs).rdata = s.rdata := rfl
@[simp] theorem appendTrace_trace (s : State) (cs : List Call) : (appendTrace s cs).trace = s.trace ++ cs := rfl
@[simp] theorem appendTrace_cp (s : State) (cs : List Call) : (appendTrace s cs).cp = s.cp := rfl
@[simp] theorem appendTrace_host (s : State) (cs : List Call) : (appendTrace s cs).host = s.host := rfl

/-! ### illegalCommand -/

@[simp] theorem illegalCommand_mem (s : State) : (illegalCommand s).mem = s.mem := rfl
@[simp] theorem illegalCommand_err (s : State) : (illegalCommand s).err = .illegalCommand := rfl
@[simp] theorem illegalCommand_tlen (s : State) : (illegalCommand s).tlen = s.tlen := rfl
@[simp] theorem illegalCommand_rdata (s : State) : (illegalCommand s).rdata = s.rdata := rfl
@[simp] theorem illegalCommand_trace (s : State) : (illegalCommand s).trace = s.trace := rfl
@[simp] theorem illegalCommand_cp (s : State) : (illegalCommand s).cp = s.cp := rfl
@[simp] theorem illegalCommand_host (s : State) : (illegalCommand s).host = s.host := rfl

/-! ### acceptCommand -/

@[simp] theorem acceptCommand_mem (s : State) (rest : List HostMove) : (acceptCommand s rest).mem = s.mem := rfl
@[simp] theorem acceptCommand_err (s : State) (rest : List HostMove) : (acceptCommand s rest).err = s.err := rfl
@[simp] theorem acceptCommand_tlen (s : State) (rest : List HostMove) : (acceptCommand s rest).tlen = s.tlen := rfl
@[simp] theorem acceptCommand_rdata (s : State) (rest : List HostMove) : (acceptCommand s rest).rdata = s.rdata := rfl
@[simp] theorem acceptCommand_trace (s : State) (rest : List HostMove) : (acceptCommand s rest).trace = s.trace := rfl
@[simp] theorem acceptCommand_cp (s : State) (rest : List HostMove) : (acceptCommand s rest).cp = s.cp + 1 := rfl
@[simp] theorem acceptCommand_host (s : State) (rest : List HostMove) : (acceptCommand s rest).host = rest := rfl

/-! ### resetInput -/

@[simp] theorem resetInput_mem (rest : List HostMove) : (resetInput rest).mem = State.reset.mem := rfl
@[simp] theorem resetInput_err (rest : List HostMove) : (resetInput rest).err = State.reset.err := rfl
@[simp] theorem resetInput_tlen (rest : List HostMove) : (resetInput rest).tlen = State.reset.tlen := rfl
@[simp] theorem resetInput_rdata (rest : List HostMove) : (resetInput rest).rdata = State.reset.rdata := rfl
@[simp] theorem resetInput_trace (rest : List HostMove) : (resetInput rest).trace = State.reset.trace := rfl
@[simp] theorem resetInput_cp (rest : List HostMove) : (resetInput rest).cp = State.reset.cp := rfl
@[simp] theorem resetInput_host (rest : List HostMove) : (resetInput rest).host = rest := rfl

/-! ### setBuf -/

/-- The buffer written reads as written. -/
@[simp] theorem bufBytes_setBuf_self (m : Memory) (b : Buf) (x : List Byte) : bufBytes (setBuf m b x) b = x := by
  cases b <;> rfl

/-- Every other buffer keeps its content. -/
theorem bufBytes_setBuf_of_ne (m : Memory) (x : List Byte) {b c : Buf} (h : c ≠ b) :
    bufBytes (setBuf m b x) c = bufBytes m c := by
  cases b <;> cases c <;> first | rfl | exact absurd rfl h

@[simp] theorem setBuf_blk (m : Memory) (b : Buf) (x : List Byte) : (setBuf m b x).blk = m.blk := by
  cases b <;> rfl

@[simp] theorem setBuf_res (m : Memory) (b : Buf) (x : List Byte) : (setBuf m b x).res = m.res := by
  cases b <;> rfl

end Sys2Proof.Machine
end

