-- ==== Sys2Proof/Laws/Finish.lean ====
section
/-!
SUPPORT. What the end of an operation command can do (60_exceptions.md R117): each of the three ends writes its outputs,
ERR and TRACE, and nothing else. Callers cite these lemmas and do not unfold the ends.
-/

namespace Sys2Proof.Machine

open Sys2Proof.Pseudo

/-- The end of MAC and TMAC: the digest and OK, or RES zeroed and the code of the error. -/
theorem finishRes_cases (r : Run Block) (s : State) :
    (∃ d, r.result = .ok d ∧ finishRes r s = withRes s d .ok r.calls) ∨
      ∃ e, r.result = .error e ∧ finishRes r s = withRes s 0#128 (errCodeOf e) r.calls := by
  unfold finishRes
  cases r.result with
  | ok d => exact .inl ⟨d, rfl, rfl⟩
  | error e => exact .inr ⟨e, rfl, rfl⟩

/-- The end of CTR and DEC: the data and OK, or DOUT emptied and the code of the error. -/
theorem finishDout_cases (r : Run (List Byte)) (s : State) :
    (∃ x, r.result = .ok x ∧ finishDout r s = withDout s x .ok r.calls) ∨
      ∃ e, r.result = .error e ∧ finishDout r s = withDout s [] (errCodeOf e) r.calls := by
  unfold finishDout
  cases r.result with
  | ok x => exact .inl ⟨x, rfl, rfl⟩
  | error e => exact .inr ⟨e, rfl, rfl⟩

/-- The end of ENC: ciphertext, tag and OK, or both outputs emptied and the code of the error. -/
theorem finishDoutTag_cases (r : Run (List Byte × List Byte)) (s : State) :
    (∃ c t, r.result = .ok (c, t) ∧ finishDoutTag r s = withDoutTag s c t .ok r.calls) ∨
      ∃ e, r.result = .error e ∧ finishDoutTag r s = withDoutTag s [] [] (errCodeOf e) r.calls := by
  unfold finishDoutTag
  cases r.result with
  | ok x => exact .inl ⟨x.1, x.2, rfl, rfl⟩
  | error e => exact .inr ⟨e, rfl, rfl⟩

/-- Whatever the run was, MAC and TMAC write RES, ERR and TRACE alone. -/
theorem finishRes_eq_withRes (r : Run Block) (s : State) :
    ∃ x e, finishRes r s = withRes s x e r.calls := by
  rcases finishRes_cases r s with ⟨d, -, h⟩ | ⟨e, -, h⟩ <;> exact ⟨_, _, h⟩

/-- Whatever the run was, CTR and DEC write DOUT, ERR and TRACE alone. -/
theorem finishDout_eq_withDout (r : Run (List Byte)) (s : State) :
    ∃ x e, finishDout r s = withDout s x e r.calls := by
  rcases finishDout_cases r s with ⟨x, -, h⟩ | ⟨e, -, h⟩ <;> exact ⟨_, _, h⟩

/-- Whatever the run was, ENC writes DOUT, TAG, ERR and TRACE alone. -/
theorem finishDoutTag_eq_withDoutTag (r : Run (List Byte × List Byte)) (s : State) :
    ∃ x t e, finishDoutTag r s = withDoutTag s x t e r.calls := by
  rcases finishDoutTag_cases r s with ⟨c, t, -, h⟩ | ⟨e, -, h⟩ <;> exact ⟨_, _, _, h⟩

/-- The code of an error that was raised is never OK. -/
theorem errCodeOf_ne_ok (e : CoreError) : errCodeOf e ≠ .ok := by
  cases e <;> decide

/-- Spaces that hold the same bytes read the same at every address. -/
theorem sameBytesOutside_of_spaceBytes {l : List Space} {s t : State}
    (h : ∀ sp, sp ∉ l → spaceBytes t.mem sp = spaceBytes s.mem sp) : sameBytesOutside l s t := by
  intro sp hsp i
  rw [byteAt, byteAt, h sp hsp]

end Sys2Proof.Machine
end

