-- ==== Sys2Proof/Laws/Exec.lean ====
section
/-!
SUPPORT. Everything one command can do, one inversion lemma per command whose meaning branches, and the same for a step.
Proofs about every command go through `exec_inv` and never unfold a meaning.
-/

namespace Sys2Proof.Machine

open Sys2Proof.Pseudo

/-- Two next states that are the same answer are the same state. -/
theorem next_inj {s t : State} (h : (Host.Outcome.next s : StepOutcome) = .next t) : s = t := by
  cases h
  rfl

/-- What a command that answered a next state did. -/
def Did (s t : State) : Instr → Prop
  | .nop => t = s
  | .clr buf => (∃ b, clrTarget buf = some b ∧ t = endWithBuf s b [] .ok) ∨ (clrTarget buf = none ∧ t = illegalCommand s)
  | .put buf v =>
    (∃ b, putTarget buf = some b ∧ (bufBytes s.mem b).length = cap b ∧ t = setErr s .bufferFull) ∨
      (∃ b, putTarget buf = some b ∧ (bufBytes s.mem b).length ≠ cap b ∧
        t = endWithBuf s b (bufBytes s.mem b ++ [v]) .ok) ∨
      (putTarget buf = none ∧ t = illegalCommand s)
  | .setb ix v => t = endWithBlk s (blockSetByte s.mem.blk ix.toNat v)
  | .settl v => t = setErr { s with tlen := v } .ok
  | .getb buf ix =>
    (∃ sp, getbSource buf = some sp ∧ t = endWithRdata s (zext32 (readByte s.mem sp ix.toNat))) ∨
      (getbSource buf = none ∧ t = illegalCommand s)
  | .getl buf => t = endWithRdata s (BitVec.ofNat 32 (spaceLen s.mem buf))
  | .getr .status => t = endWithRdata s (statusWord s)
  | .getr .tlen => t = endWithRdata s (tlenWord s)
  | .dbl => t = endWithRes s (fieldDouble s.mem.blk) .ok
  | .mac => t = macCommand Config.encryptBlock s
  | .tmac d => (d ≤ 2#8 ∧ t = tmacCommand Config.encryptBlock d s) ∨ (¬ d ≤ 2#8 ∧ t = illegalCommand s)
  | .ctr => t = ctrCommand Config.encryptBlock s
  | .enc => t = encCommand Config.encryptBlock s
  | .dec => t = decCommand Config.encryptBlock s

theorem execClr_inv {buf : Space} {s t : State} (h : execClr buf s = .next t) : Did s t (.clr buf) := by
  unfold execClr at h
  cases hb : clrTarget buf with
  | some b => rw [hb] at h; exact .inl ⟨b, hb, (next_inj h).symm⟩
  | none => rw [hb] at h; exact .inr ⟨hb, (next_inj h).symm⟩

theorem execPut_inv {buf : Space} {v : Byte} {s t : State} (h : execPut buf v s = .next t) : Did s t (.put buf v) := by
  unfold execPut at h
  cases hb : putTarget buf with
  | some b =>
    rw [hb] at h
    by_cases hl : (bufBytes s.mem b).length = cap b
    · simp only [hl, if_true] at h
      exact .inl ⟨b, hb, hl, (next_inj h).symm⟩
    · simp only [hl, if_false] at h
      exact .inr (.inl ⟨b, hb, hl, (next_inj h).symm⟩)
  | none => rw [hb] at h; exact .inr (.inr ⟨hb, (next_inj h).symm⟩)

theorem execGetb_inv {buf : Space} {ix : BitVec 16} {s t : State} (h : execGetb buf ix s = .next t) :
    Did s t (.getb buf ix) := by
  unfold execGetb at h
  cases hb : getbSource buf with
  | some b => rw [hb] at h; exact .inl ⟨b, hb, (next_inj h).symm⟩
  | none => rw [hb] at h; exact .inr ⟨hb, (next_inj h).symm⟩

theorem execTmac_inv {d : Byte} {s t : State} (h : execTmac d s = .next t) : Did s t (.tmac d) := by
  unfold execTmac at h
  by_cases hd : d ≤ 2#8
  · rw [if_pos hd] at h; exact .inl ⟨hd, (next_inj h).symm⟩
  · rw [if_neg hd] at h; exact .inr ⟨hd, (next_inj h).symm⟩

/-- Everything `exec` can do when it answers a next state. -/
theorem exec_inv {i : Instr} {s t : State} (h : exec i s = .next t) : Did s t i := by
  cases i with
  | clr buf => exact execClr_inv h
  | put buf v => exact execPut_inv h
  | getb buf ix => exact execGetb_inv h
  | getr r => cases r <;> exact (next_inj h).symm
  | tmac d => exact execTmac_inv h
  | _ => exact (next_inj h).symm

/-! ### The other direction: where each branch is taken -/

theorem exec_clr_of {buf : Space} {b : Buf} (h : clrTarget buf = some b) (s : State) :
    exec (.clr buf) s = .next (endWithBuf s b [] .ok) := by
  simp only [exec, execClr, h]

theorem exec_put_full {buf : Space} {b : Buf} {s : State} (v : Byte) (h : putTarget buf = some b)
    (hl : (bufBytes s.mem b).length = cap b) : exec (.put buf v) s = .next (setErr s .bufferFull) := by
  simp only [exec, execPut, h, hl, if_true]

theorem exec_put_room {buf : Space} {b : Buf} {s : State} (v : Byte) (h : putTarget buf = some b)
    (hl : (bufBytes s.mem b).length ≠ cap b) :
    exec (.put buf v) s = .next (endWithBuf s b (bufBytes s.mem b ++ [v]) .ok) := by
  simp only [exec, execPut, h, hl, if_false]

theorem exec_getb_of {buf sp : Space} (ix : BitVec 16) (h : getbSource buf = some sp) (s : State) :
    exec (.getb buf ix) s = .next (endWithRdata s (zext32 (readByte s.mem sp ix.toNat))) := by
  simp only [exec, execGetb, h]

theorem exec_tmac_of {d : Byte} (h : d ≤ 2#8) (s : State) :
    exec (.tmac d) s = .next (tmacCommand Config.encryptBlock d s) := by
  simp only [exec, execTmac, h, if_true]

/-- A term that is not well formed acts as its Illegal word does (R50). -/
theorem exec_put_illegal {buf : Space} (v : Byte) (h : putTarget buf = none) (s : State) :
    exec (.put buf v) s = .next (illegalCommand s) := by
  simp only [exec, execPut, h]

theorem exec_clr_illegal {buf : Space} (h : clrTarget buf = none) (s : State) :
    exec (.clr buf) s = .next (illegalCommand s) := by
  simp only [exec, execClr, h]

theorem exec_getb_illegal {buf : Space} (ix : BitVec 16) (h : getbSource buf = none) (s : State) :
    exec (.getb buf ix) s = .next (illegalCommand s) := by
  simp only [exec, execGetb, h]

theorem exec_tmac_illegal {d : Byte} (h : ¬ d ≤ 2#8) (s : State) : exec (.tmac d) s = .next (illegalCommand s) := by
  simp only [exec, execTmac, h, if_false]

/-- Everything a step can do. -/
theorem step_inv {s t : State} (h : step s = .next t) :
    (s.host = [] ∧ t = s) ∨
      (∃ rest, s.host = .reset :: rest ∧ t = resetInput rest) ∨
      (∃ w rest i, s.host = .command w :: rest ∧ decode w = .legal i ∧ exec i (acceptCommand s rest) = .next t) ∨
      ∃ w rest r, s.host = .command w :: rest ∧ decode w = .illegal r ∧ t = illegalCommand (acceptCommand s rest) := by
  unfold step at h
  cases hh : s.host with
  | nil => rw [hh] at h; exact .inl ⟨rfl, (next_inj h).symm⟩
  | cons m rest =>
    rw [hh] at h
    cases m with
    | reset => exact .inr (.inl ⟨rest, rfl, (next_inj h).symm⟩)
    | command w =>
      cases hd : decode w with
      | legal i =>
        simp only [hd] at h
        exact .inr (.inr (.inl ⟨w, rest, i, rfl, hd, h⟩))
      | illegal r =>
        simp only [hd] at h
        exact .inr (.inr (.inr ⟨w, rest, r, rfl, hd, (next_inj h).symm⟩))

/-- `exec` never refuses: the refusal has no meaning that raises it. -/
theorem exec_ne_refused (i : Instr) (s : State) (r : Refusal) : exec i s ≠ .refused r := by
  intro h
  cases i with
  | clr buf => cases buf <;> cases h
  | put buf v => cases buf <;> simp only [exec, execPut, putTarget] at h <;> (try split at h) <;> cases h
  | getb buf ix => cases buf <;> cases h
  | getr r => cases r <;> cases h
  | tmac d =>
    simp only [exec, execTmac] at h
    split at h <;> cases h
  | _ => cases h

end Sys2Proof.Machine
end

