-- ==== Sys2Proof/Laws/Fields.lean ====
section
/-!
SUPPORT. The fields of a command word (30_encoding.md R45, R46): `fieldsOf` and `fieldsWord` are inverse, and the fields are
the shifts and remainders of 00_scope.md R7.
-/

namespace Sys2Proof

open Sys2Proof.Pseudo

/-! ### The fields as numbers -/

theorem bits_op (w : Word) : bits w 31 24 = (fieldsOf w).op.toNat := by
  simp [bits, fieldsOf, BitVec.extractLsb'_toNat]

theorem bits_sel (w : Word) : bits w 23 20 = (fieldsOf w).sel.toNat := by
  simp [bits, fieldsOf, BitVec.extractLsb'_toNat]

theorem bits_ix4 (w : Word) : bits w 19 16 = (fieldsOf w).ix4.toNat := by
  simp [bits, fieldsOf, BitVec.extractLsb'_toNat]

theorem bits_hi (w : Word) : bits w 15 8 = (fieldsOf w).hi.toNat := by
  simp [bits, fieldsOf, BitVec.extractLsb'_toNat]

theorem bits_lo (w : Word) : bits w 7 0 = (fieldsOf w).lo.toNat := by
  simp [bits, fieldsOf, BitVec.extractLsb'_toNat]

theorem word_toNat (w : Word) :
    w.toNat = bits w 31 24 * 2 ^ 24 + bits w 23 20 * 2 ^ 20 + bits w 19 16 * 2 ^ 16 + bits w 15 8 * 2 ^ 8 + bits w 7 0 := by
  have := w.isLt
  simp only [bits, Nat.shiftRight_eq_div_pow]
  omega

/-- `rest24` (R46). -/
theorem bits_rest24 (w : Word) :
    bits w 23 0 = bits w 23 20 * 2 ^ 20 + bits w 19 16 * 2 ^ 16 + bits w 15 8 * 2 ^ 8 + bits w 7 0 := by
  simp only [bits, Nat.shiftRight_eq_div_pow]
  omega

theorem bits_low20 (w : Word) : bits w 19 0 = bits w 19 16 * 2 ^ 16 + bits w 15 8 * 2 ^ 8 + bits w 7 0 := by
  simp only [bits, Nat.shiftRight_eq_div_pow]
  omega

theorem append_toNat {m n : Nat} (a : BitVec m) (b : BitVec n) : (a ++ b).toNat = a.toNat * 2 ^ n + b.toNat := by
  rw [BitVec.toNat_append, Nat.shiftLeft_eq, Nat.mul_comm, Nat.two_pow_add_eq_or_of_lt b.isLt]

theorem fieldsWord_toNat (f : Fields) :
    (fieldsWord f).toNat =
      f.op.toNat * 2 ^ 24 + f.sel.toNat * 2 ^ 20 + f.ix4.toNat * 2 ^ 16 + f.hi.toNat * 2 ^ 8 + f.lo.toNat := by
  unfold fieldsWord
  simp only [append_toNat]
  ring

/-! ### The two directions -/

/-- No bit of a word is lost in its fields. -/
theorem fieldsWord_fieldsOf (w : Word) : fieldsWord (fieldsOf w) = w := by
  apply BitVec.eq_of_toNat_eq
  rw [fieldsWord_toNat, word_toNat w, bits_op, bits_sel, bits_ix4, bits_hi, bits_lo]

/-- No field is lost in its word. -/
theorem fieldsOf_fieldsWord (f : Fields) : fieldsOf (fieldsWord f) = f := by
  have h := fieldsWord_toNat f
  have h2 := word_toNat (fieldsWord f)
  rw [bits_op, bits_sel, bits_ix4, bits_hi, bits_lo] at h2
  obtain ⟨a, b, c, d, e⟩ := f
  have := a.isLt
  have := b.isLt
  have := c.isLt
  have := d.isLt
  have := e.isLt
  generalize fieldsOf (fieldsWord ⟨a, b, c, d, e⟩) = g at *
  obtain ⟨a', b', c', d', e'⟩ := g
  have := a'.isLt
  have := b'.isLt
  have := c'.isLt
  have := d'.isLt
  have := e'.isLt
  simp only [Fields.mk.injEq]
  simp only at h h2
  refine ⟨?_, ?_, ?_, ?_, ?_⟩ <;> (apply BitVec.eq_of_toNat_eq; omega)

/-- The index operand of GETB in its two fields and back (R46). -/
theorem idx16_split (x : BitVec 16) : x.extractLsb' 8 8 ++ x.extractLsb' 0 8 = x := by
  apply BitVec.eq_of_toNat_eq
  have := x.isLt
  rw [append_toNat]
  simp only [BitVec.extractLsb'_toNat, Nat.shiftRight_eq_div_pow]
  omega

/-! ### Selectors -/

@[simp] theorem spaceOfSel_selOfSpace (sp : Space) : spaceOfSel (selOfSpace sp) = some sp := by
  cases sp <;> rfl

@[simp] theorem ctrlRegOfSel_selOfCtrlReg (r : CtrlReg) : ctrlRegOfSel (selOfCtrlReg r) = some r := by
  cases r <;> rfl

/-- A selector names at most one space, whose code it is. -/
theorem eq_selOfSpace {x : BitVec 4} {sp : Space} (h : spaceOfSel x = some sp) : x = selOfSpace sp := by
  revert x sp
  decide

theorem eq_selOfCtrlReg {x : BitVec 4} {r : CtrlReg} (h : ctrlRegOfSel x = some r) : x = selOfCtrlReg r := by
  revert x r
  decide

theorem selOfSpace_toNat (sp : Space) : (selOfSpace sp).toNat = selNumber sp := by
  cases sp <;> rfl

theorem selOfCtrlReg_toNat (r : CtrlReg) : (selOfCtrlReg r).toNat = regNumber r := by
  cases r <;> rfl

/-! ### The decoder's two shapes -/

theorem decodeBare_legal_iff {f : Fields} {i j : Instr} :
    decodeBare f j = .legal i ↔ (f.sel = 0#4 ∧ f.ix4 = 0#4 ∧ f.hi = 0#8 ∧ f.lo = 0#8) ∧ i = j := by
  unfold decodeBare
  split
  · next h => simp [h, eq_comm]
  · next h => simp [h]

theorem decodeSpace_legal_iff {sel : BitVec 4} {ok : Bool} {f : Space → Instr} {i : Instr} :
    decodeSpace sel ok f = .legal i ↔ ∃ sp, sel = selOfSpace sp ∧ ok = true ∧ i = f sp := by
  unfold decodeSpace
  cases hs : spaceOfSel sel with
  | none =>
    simp only [reduceCtorEq, false_iff, not_exists]
    rintro sp ⟨rfl, -⟩
    simp at hs
  | some sp =>
    rw [eq_selOfSpace hs]
    cases ok with
    | false => simp
    | true =>
      simp only [if_true, Decoded.legal.injEq, true_and]
      constructor
      · rintro rfl
        exact ⟨sp, rfl, rfl⟩
      · rintro ⟨sp', h, rfl⟩
        have : some sp = some sp' := by rw [← spaceOfSel_selOfSpace sp, ← spaceOfSel_selOfSpace sp', h]
        rw [Option.some.inj this]

/-- A word is Illegal exactly when it decodes to no command. -/
theorem instr?_eq_none_iff (d : Decoded) : d.instr? = none ↔ ∀ i, d ≠ .legal i := by
  cases d <;> simp [Decoded.instr?]

/-! ### AND -/

/-- A bitwise AND of words is one of their fields. -/
theorem fieldsWord_and (f g : Fields) :
    fieldsWord f &&& fieldsWord g =
      fieldsWord ⟨f.op &&& g.op, f.sel &&& g.sel, f.ix4 &&& g.ix4, f.hi &&& g.hi, f.lo &&& g.lo⟩ := by
  have key : ∀ {m n : Nat} (a c : BitVec m) (b d : BitVec n), (a ++ b) &&& (c ++ d) = (a &&& c) ++ (b &&& d) := by
    intro m n a c b d
    apply BitVec.eq_of_getLsbD_eq
    intro i _
    simp only [BitVec.getLsbD_and, BitVec.getLsbD_append]
    by_cases h : i < n <;> simp [h]
  simp only [fieldsWord, key]

end Sys2Proof
end

