-- ==== Sys2Proof/Laws/Run.lean ====
section
/-!
SUPPORT. What evaluating a function rule can do (00_scope.md R8): the lemmas about `Run`, said once for `runBind` and
`ecall`, in terms of the list of intended calls.
-/

namespace Sys2Proof.Machine

open Sys2Proof.Pseudo

/-! ### runBind -/

@[simp] theorem runPure_calls {α : Type} (a : α) : (runPure a).calls = [] := rfl
@[simp] theorem runPure_result {α : Type} (a : α) : (runPure a).result = .ok a := rfl
@[simp] theorem runRaise_calls {α : Type} (e : CoreError) : (runRaise (α := α) e).calls = [] := rfl
@[simp] theorem runRaise_result {α : Type} (e : CoreError) : (runRaise (α := α) e).result = .error e := rfl

theorem runBind_of_ok {α β : Type} {r : Run α} {a : α} (f : α → Run β) (h : r.result = .ok a) :
    runBind r f = { calls := r.calls ++ (f a).calls, result := (f a).result } := by
  simp [runBind, h]

theorem runBind_of_error {α β : Type} {r : Run α} {e : CoreError} (f : α → Run β) (h : r.result = .error e) :
    runBind r f = { calls := r.calls, result := .error e } := by
  simp [runBind, h]

/-- A run that ended with a value evaluated both parts. -/
theorem runBind_ok_iff {α β : Type} {r : Run α} {f : α → Run β} {b : β} :
    (runBind r f).result = .ok b ↔ ∃ a, r.result = .ok a ∧ (f a).result = .ok b := by
  unfold runBind
  cases r.result <;> simp

/-- A run that ended with an error ended in the first part, or in the second after the first's value. -/
theorem runBind_error_iff {α β : Type} {r : Run α} {f : α → Run β} {e : CoreError} :
    (runBind r f).result = .error e ↔
      r.result = .error e ∨ ∃ a, r.result = .ok a ∧ (f a).result = .error e := by
  unfold runBind
  cases r.result <;> simp

/-! ### Intended calls -/

@[simp] theorem anyFails_nil (E : Cipher) : anyFails E [] = false := rfl
@[simp] theorem untilFailure_nil (E : Cipher) : untilFailure E [] = [] := rfl

theorem anyFails_append (E : Cipher) (cs ds : List Call) : anyFails E (cs ++ ds) = (anyFails E cs || anyFails E ds) := by
  simp [anyFails]

/-- Without a failing call all intended calls are made. -/
theorem untilFailure_of_not_anyFails {E : Cipher} {cs : List Call} (h : anyFails E cs = false) :
    untilFailure E cs = cs := by
  induction cs with
  | nil => rfl
  | cons c cs ih =>
    simp only [anyFails, List.any_cons, Bool.or_eq_false_iff] at h
    simp [untilFailure, h.1, ih h.2]

/-- A failing call of the first list hides the second list. -/
theorem untilFailure_append_left {E : Cipher} {cs : List Call} (ds : List Call) (h : anyFails E cs = true) :
    untilFailure E (cs ++ ds) = untilFailure E cs := by
  induction cs with
  | nil => simp at h
  | cons c cs ih =>
    by_cases hc : fails E c = true
    · simp [untilFailure, hc]
    · have : anyFails E cs = true := by simpa [anyFails, hc] using h
      simp [untilFailure, hc, ih this]

theorem untilFailure_append_right {E : Cipher} {cs : List Call} (ds : List Call) (h : anyFails E cs = false) :
    untilFailure E (cs ++ ds) = cs ++ untilFailure E ds := by
  induction cs with
  | nil => rfl
  | cons c cs ih =>
    simp only [anyFails, List.any_cons, Bool.or_eq_false_iff] at h
    simp [untilFailure, h.1, ih h.2]

/-- The calls made contain a failing one exactly when the intended calls do. -/
@[simp] theorem anyFails_untilFailure (E : Cipher) (cs : List Call) : anyFails E (untilFailure E cs) = anyFails E cs := by
  induction cs with
  | nil => rfl
  | cons c cs ih =>
    by_cases hc : fails E c = true
    · simp [untilFailure, anyFails, hc]
    · have := ih
      simp only [anyFails] at this
      simp [untilFailure, anyFails, hc, this]

/-- Of the calls made only the last can have failed (R8). -/
theorem fails_dropLast_untilFailure {E : Cipher} {cs : List Call} {c : Call} (h : c ∈ (untilFailure E cs).dropLast) :
    fails E c = false := by
  induction cs with
  | nil => simp at h
  | cons d cs ih =>
    by_cases hd : fails E d = true
    · simp [untilFailure, hd] at h
    · rw [untilFailure, if_neg hd] at h
      cases hu : untilFailure E cs with
      | nil => simp [hu] at h
      | cons x xs =>
        rw [hu, List.dropLast_cons_cons] at h
        rcases List.mem_cons.mp h with h | h
        · rw [h]
          simpa using hd
        · exact ih (by rw [hu]; exact h)

theorem mem_of_mem_untilFailure {E : Cipher} {cs : List Call} {c : Call} (h : c ∈ untilFailure E cs) : c ∈ cs := by
  induction cs with
  | nil => simp at h
  | cons d cs ih =>
    by_cases hd : fails E d = true
    · simp only [untilFailure, if_pos hd, List.mem_singleton] at h
      simp [h]
    · simp only [untilFailure, if_neg hd, List.mem_cons] at h
      rcases h with h | h
      · simp [h]
      · exact List.mem_cons_of_mem _ (ih h)

/-! ### Runs that follow a list of intended calls -/

/-- The run that intends the calls `cs` and then has the value `v`. -/
def planned {α : Type} (E : Cipher) (cs : List Call) (v : α) : Run α where
  calls := untilFailure E cs
  result := if anyFails E cs then .error .blockCipherError else .ok v

theorem runPure_planned {α : Type} (E : Cipher) (v : α) : runPure v = planned E [] v := rfl

/-- `Ecall` intends one call and has E's answer as its value (R8). -/
theorem ecall_planned (E : Cipher) (K X : Block) : ecall E K X = planned E [(K, X)] (answer E K X) := by
  cases h : E K X <;> simp [ecall, planned, answer, anyFails, untilFailure, fails, h]

/-- Two runs in sequence intend the calls of both in order. -/
theorem runBind_planned {α β : Type} {E : Cipher} {cs ds : List Call} {v : α} {w : β} {f : α → Run β}
    (h : f v = planned E ds w) : runBind (planned E cs v) f = planned E (cs ++ ds) w := by
  cases hc : anyFails E cs with
  | true =>
    rw [runBind_of_error (e := .blockCipherError) f (by simp [planned, hc])]
    simp [planned, anyFails_append, hc, untilFailure_append_left ds hc]
  | false =>
    rw [runBind_of_ok (a := v) f (by simp [planned, hc]), h]
    simp [planned, anyFails_append, hc, untilFailure_append_right ds hc, untilFailure_of_not_anyFails hc]

theorem planned_ok_iff {α : Type} {E : Cipher} {cs : List Call} {v w : α} :
    (planned E cs v).result = .ok w ↔ anyFails E cs = false ∧ v = w := by
  unfold planned
  cases anyFails E cs <;> simp

end Sys2Proof.Machine
end

