-- ==== Sys2Proof/Laws/Functions.lean ====
section
/-!
SUPPORT. The recursive definitions of the function rules by index (41_mac.md R67, 43_countercipher.md R81), and the end of an
operation command on a run that follows a list of intended calls (60_exceptions.md R117).
-/

namespace Sys2Proof.Machine

open Sys2Proof.Pseudo

/-! ### Blocks of a message -/

/-- Block `j` of a sequence is its bytes `16j .. 16j+16` (R31). -/
theorem takeBlocks_eq_map (n : Nat) (x : List Byte) :
    takeBlocks n x = (List.range n).map fun j => blockOfBytes ((x.drop (16 * j)).take 16) := by
  induction n generalizing x with
  | zero => rfl
  | succ n ih =>
    rw [takeBlocks, ih, List.range_succ_eq_map, List.map_cons, List.map_map]
    congr 1
    apply List.map_congr_left
    intro j _
    simp [Nat.mul_add, Nat.add_comm]

/-- Masking touches the last block alone (R67). -/
theorem maskLast_map (S : Block) (f : Nat → Block) (a n : Nat) :
    maskLast S ((List.range' a n).map f) = (List.range' a n).map fun j => if j + 1 = a + n then f j ^^^ S else f j := by
  induction n generalizing a with
  | zero => rfl
  | succ n ih =>
    cases n with
    | zero => simp [maskLast]
    | succ n =>
      have h := ih (a + 1)
      simp only [List.range'_succ, List.map_cons, maskLast] at h ⊢
      rw [if_neg (by omega), h]
      simp only [show a + 1 + (n + 1) = a + (n + 1 + 1) by omega]

/-- The tagged message starts with the prefix block (R76). -/
theorem domainBlock_append (t : Byte) (m : List Byte) : domainBlock t ++ m = tagged t m := by
  rw [domainBlock, List.append_assoc]
  rfl

theorem tagged_length (t : Byte) (m : List Byte) : (tagged t m).length = 16 + m.length := by
  simp only [tagged, List.length_append, List.length_replicate, List.length_cons]
  omega

/-- The number of blocks in one formula (R72 (a)). -/
theorem blockCount_eq_max (m : List Byte) : blockCount m = max 1 (ceil16 m.length) := by
  unfold blockCount ceil16
  split <;> omega

/-! ### Keystream -/

theorem inc128_toNat (x : Block) : (inc128 x).toNat = (x.toNat + 1) % 2 ^ 128 := by
  simp [inc128, BitVec.toNat_add]

theorem xorChunk_getElem? (x : List Byte) (k : Block) {i : Nat} (h : i < 16) :
    (xorChunk x k)[i]? = (x[i]?).map fun b => b ^^^ blockByte k i := by
  rw [xorChunk, List.getElem?_zipWith, blockToBytes_getElem?, if_pos h]
  cases x[i]? <;> rfl

theorem ctrOut_length (E : Cipher) (K S : Block) (x : List Byte) : (ctrOut E K S x).length = x.length := by
  simp [ctrOut]

theorem ctrOut_getElem? (E : Cipher) (K S : Block) (x : List Byte) (i : Nat) :
    (ctrOut E K S x)[i]? = (x[i]?).map fun b => b ^^^ blockByte (keystreamBlock E K S (i / 16)) (i % 16) := by
  simp [ctrOut]

/-! ### The end of a command on a planned run -/

theorem finishRes_planned (E : Cipher) (cs : List Call) (d : Block) (s : State) :
    finishRes (planned E cs d) s =
      if anyFails E cs then withRes s 0#128 .blockCipherError (untilFailure E cs) else withRes s d .ok cs := by
  unfold finishRes
  cases h : anyFails E cs
  · simp only [planned, h, untilFailure_of_not_anyFails h]
    rfl
  · simp only [planned, h]
    rfl

theorem finishDout_planned (E : Cipher) (cs : List Call) (x : List Byte) (s : State) :
    finishDout (planned E cs x) s =
      if anyFails E cs then withDout s [] .blockCipherError (untilFailure E cs) else withDout s x .ok cs := by
  unfold finishDout
  cases h : anyFails E cs
  · simp only [planned, h, untilFailure_of_not_anyFails h]
    rfl
  · simp only [planned, h]
    rfl

theorem finishDoutTag_planned (E : Cipher) (cs : List Call) (x t : List Byte) (s : State) :
    finishDoutTag (planned E cs (x, t)) s =
      if anyFails E cs then withDoutTag s [] [] .blockCipherError (untilFailure E cs) else withDoutTag s x t .ok cs := by
  unfold finishDoutTag
  cases h : anyFails E cs
  · simp only [planned, h, untilFailure_of_not_anyFails h]
    rfl
  · simp only [planned, h]
    rfl

/-! ### The key check comes first -/

theorem macRun_of_length_ne (E : Cipher) {K : List Byte} (m : List Byte) (h : K.length ≠ 16) :
    macRun E K m = runRaise .invalidKeyLength := if_neg h

theorem counterCipherRun_of_length_ne (E : Cipher) {K : List Byte} (S : Block) (x : List Byte) (h : K.length ≠ 16) :
    counterCipherRun E K S x = runRaise .invalidKeyLength := if_neg h

theorem encryptRun_of_length_ne (E : Cipher) {K : List Byte} (N H P : List Byte) (tl : Nat) (h : K.length ≠ 16) :
    encryptRun E K N H P tl = runRaise .invalidKeyLength := if_neg h

theorem decryptRun_of_length_ne (E : Cipher) {K : List Byte} (N H C T : List Byte) (h : K.length ≠ 16) :
    decryptRun E K N H C T = runRaise .invalidKeyLength := if_neg h

end Sys2Proof.Machine
end

