-- ==== Sys2Proof/Laws/Memory.lean ====
section
/-!
SUPPORT. The canonical form of memory (10_state.md R10): State.reset has it, and every operation that writes a space keeps
it. The lengths the function rules answer (43_countercipher.md R85 (a), 44_aead.md R89) are what the last two need.
-/

namespace Sys2Proof.Machine

/-! ### The capacities -/

theorem maxLen_ge : 64 ≤ Config.maxLen := by
  unfold Config.maxLen
  omega

theorem maxLen_le : Config.maxLen ≤ 65535 := by
  have := Config.maxLenAboveLeast.isLt
  unfold Config.maxLen
  omega

/-- In a memory of canonical form every length fits GETB's 16-bit index and GETL's 32 bits. -/
theorem spaceLen_le_of_wf {m : Memory} (h : m.wf) (sp : Space) : spaceLen m sp ≤ 65535 := by
  obtain ⟨h1, h2, h3, h4, h5, h6⟩ := h
  have := maxLen_le
  simp only [cap] at h1 h2 h3 h4 h5 h6
  cases sp <;> simp only [spaceLen] <;> omega

/-! ### Reset and the writes -/

theorem memory_reset_wf : State.reset.mem.wf := by
  refine ⟨?_, ?_, ?_, ?_, ?_, ?_⟩ <;> exact Nat.zero_le _

/-- Replacing a buffer's content by one within the capacity (CLR, PUT). -/
theorem setBuf_wf {m : Memory} {b : Buf} {x : List Byte} (h : m.wf) (hx : x.length ≤ cap b) : (setBuf m b x).wf := by
  obtain ⟨h1, h2, h3, h4, h5, h6⟩ := h
  cases b <;> first
    | exact ⟨hx, h2, h3, h4, h5, h6⟩
    | exact ⟨h1, hx, h3, h4, h5, h6⟩
    | exact ⟨h1, h2, hx, h4, h5, h6⟩
    | exact ⟨h1, h2, h3, hx, h5, h6⟩
    | exact ⟨h1, h2, h3, h4, hx, h6⟩
    | exact ⟨h1, h2, h3, h4, h5, hx⟩

/-- Appending a byte where the buffer is not full (PUT). -/
theorem append_wf {m : Memory} {b : Buf} (v : Byte) (h : m.wf) (hl : (bufBytes m b).length ≠ cap b) :
    (setBuf m b (bufBytes m b ++ [v])).wf := by
  apply setBuf_wf h
  obtain ⟨h1, h2, h3, h4, h5, h6⟩ := h
  cases b <;> simp only [bufBytes, cap, List.length_append, List.length_singleton] at * <;> omega

/-- Writing BLK (SETB). -/
theorem blk_wf {m : Memory} (x : Block) (h : m.wf) : ({ m with blk := x } : Memory).wf := h

/-- Writing RES (DBL, MAC, TMAC). -/
theorem res_wf {m : Memory} (x : Block) (h : m.wf) : ({ m with res := x } : Memory).wf := h

/-- Writing DOUT (CTR, DEC). -/
theorem dout_wf {m : Memory} {x : List Byte} (h : m.wf) (hx : x.length ≤ cap .dout) :
    ({ m with dout := x } : Memory).wf :=
  setBuf_wf (b := .dout) h hx

/-- Writing DOUT and TAG (ENC). -/
theorem dout_tag_wf {m : Memory} {x t : List Byte} (h : m.wf) (hx : x.length ≤ cap .dout) (ht : t.length ≤ cap .tag) :
    ({ m with dout := x, tag := t } : Memory).wf :=
  setBuf_wf (b := .tag) (dout_wf h hx) ht

/-! ### The lengths of results -/

/-- A keystream chunk is as long as its data, at most sixteen bytes. -/
theorem xorChunk_length (x : List Byte) (k : Block) : (xorChunk x k).length = min x.length 16 := by
  simp [xorChunk]

/-- The blocks that were XORed keep their length. -/
theorem ctrBlocks_length {E : Cipher} {K : Block} {n : Nat} {S : Block} {x y : List Byte}
    (h : (ctrBlocks E K n S x).result = .ok y) : y.length = min x.length (16 * n) := by
  induction n generalizing S x y with
  | zero =>
    simp only [ctrBlocks, runPure_result, Except.ok.injEq] at h
    simp [← h]
  | succ n ih =>
    rw [ctrBlocks, runBind_ok_iff] at h
    obtain ⟨k, -, h⟩ := h
    rw [runBind_ok_iff] at h
    obtain ⟨z, hz, h⟩ := h
    simp only [runPure_result, Except.ok.injEq] at h
    have := ih hz
    rw [← h, List.length_append, xorChunk_length, this]
    simp only [List.length_take, List.length_drop]
    omega

theorem counterCipherRun_length {E : Cipher} {K : List Byte} {S : Block} {x y : List Byte}
    (h : (counterCipherRun E K S x).result = .ok y) : y.length = x.length := by
  unfold counterCipherRun at h
  split at h
  · rw [ctrBlocks_length h]
    omega
  · cases h

theorem encryptRun_lengths {E : Cipher} {K N H P C T : List Byte} {tl : Nat}
    (h : (encryptRun E K N H P tl).result = .ok (C, T)) : C.length = P.length ∧ T.length ≤ 16 := by
  unfold encryptRun at h
  split at h
  · split at h
    · rw [runBind_ok_iff] at h
      obtain ⟨n, -, h⟩ := h
      rw [runBind_ok_iff] at h
      obtain ⟨d, -, h⟩ := h
      rw [runBind_ok_iff] at h
      obtain ⟨c, hc, h⟩ := h
      rw [runBind_ok_iff] at h
      obtain ⟨e, -, h⟩ := h
      simp only [runPure_result, Except.ok.injEq, Prod.mk.injEq] at h
      rw [← h.1, ← h.2]
      refine ⟨counterCipherRun_length hc, ?_⟩
      rw [List.length_take, blockToBytes_length]
      omega
    · cases h
  · cases h

theorem decryptRun_length {E : Cipher} {K N H C T P : List Byte} (h : (decryptRun E K N H C T).result = .ok P) :
    P.length = C.length := by
  unfold decryptRun at h
  split at h
  · rw [runBind_ok_iff] at h
    obtain ⟨n, -, h⟩ := h
    rw [runBind_ok_iff] at h
    obtain ⟨d, -, h⟩ := h
    rw [runBind_ok_iff] at h
    obtain ⟨c, -, h⟩ := h
    split at h
    · exact counterCipherRun_length h
    · cases h
  · cases h

/-- The key presented on every call is the content of a 16-byte KEY (R41). -/
theorem keyBlock_bytes {K : List Byte} (h : K.length = 16) : blockToBytes (keyBlock K) = K := by
  rw [keyBlock, blockToBytes_ofBytes (by simp [h]), List.take_of_length_le (by omega)]

end Sys2Proof.Machine
end

