-- ==== Sys2Proof/Laws/PerInstr.lean ====
section
/-!
SUPPORT. Statements about every instruction as syntax, one lemma per constructor.
-/

namespace Sys2Proof.Laws.EncodedInRow

open Sys2Proof

/-- The word of the command has the bits its row of the opcode table fixes (30_encoding.md R48: `w and mask = match`),
with every value of its operands, well formed or not. -/
def Statement (i : Instr) : Prop :=
  rowMatches (tableRow i) (encode i) = true

/-- A row whose mask and match are given by fields matches a word whose masked fields are those of the match. -/
theorem of_fields {i : Instr} (mask bits : Fields) (hm : (tableRow i).mask = fieldsWord mask)
    (hb : (tableRow i).matchBits = fieldsWord bits)
    (h : (⟨(encodeFields i).op &&& mask.op, (encodeFields i).sel &&& mask.sel, (encodeFields i).ix4 &&& mask.ix4,
      (encodeFields i).hi &&& mask.hi, (encodeFields i).lo &&& mask.lo⟩ : Fields) = bits) : Statement i := by
  simp [Statement, rowMatches, encode, hm, hb, fieldsWord_and, h]

theorem nop : Statement .nop := by
  unfold Statement
  decide

theorem clr (buf : Space) : Statement (.clr buf) := by
  unfold Statement
  cases buf <;> decide

theorem put (buf : Space) (imm8 : Byte) : Statement (.put buf imm8) := by
  apply of_fields ⟨0xFF#8, 0x0#4, 0xF#4, 0xFF#8, 0x00#8⟩ ⟨0x02#8, 0#4, 0#4, 0#8, 0#8⟩ rfl rfl
  cases buf <;> simp [encodeFields]

theorem setb (ix4 : BitVec 4) (imm8 : Byte) : Statement (.setb ix4 imm8) := by
  apply of_fields ⟨0xFF#8, 0xF#4, 0x0#4, 0xFF#8, 0x00#8⟩ ⟨0x03#8, 0#4, 0#4, 0#8, 0#8⟩ rfl rfl
  simp [encodeFields]

theorem settl (imm8 : Byte) : Statement (.settl imm8) := by
  apply of_fields ⟨0xFF#8, 0xF#4, 0xF#4, 0xFF#8, 0x00#8⟩ ⟨0x04#8, 0#4, 0#4, 0#8, 0#8⟩ rfl rfl
  simp [encodeFields]

theorem getb (buf : Space) (idx16 : BitVec 16) : Statement (.getb buf idx16) := by
  apply of_fields ⟨0xFF#8, 0x0#4, 0xF#4, 0x00#8, 0x00#8⟩ ⟨0x08#8, 0#4, 0#4, 0#8, 0#8⟩ rfl rfl
  simp [encodeFields]

theorem getl (buf : Space) : Statement (.getl buf) := by
  unfold Statement
  cases buf <;> decide

theorem getr (reg : CtrlReg) : Statement (.getr reg) := by
  unfold Statement
  cases reg <;> decide

theorem dbl : Statement .dbl := by
  unfold Statement
  decide

theorem mac : Statement .mac := by
  unfold Statement
  decide

theorem tmac (t : Byte) : Statement (.tmac t) := by
  apply of_fields ⟨0xFF#8, 0xF#4, 0xF#4, 0xFF#8, 0x00#8⟩ ⟨0x12#8, 0#4, 0#4, 0#8, 0#8⟩ rfl rfl
  simp [encodeFields]

theorem ctr : Statement .ctr := by
  unfold Statement
  decide

theorem enc : Statement .enc := by
  unfold Statement
  decide

theorem dec : Statement .dec := by
  unfold Statement
  decide

end Sys2Proof.Laws.EncodedInRow
end

