-- ==== Sys2Proof/Tests/Slice0.lean ====
section
/-!
SUPPORT. Tests of single steps and witnesses for the hypotheses of the statements. Expected values are those of
95_test_vectors.md and of the rules' own examples, never the model's own answers.
-/

namespace Sys2Proof.Tests

open Sys2Proof Sys2Proof.Machine Sys2Proof.Pseudo

/-! ### Fixtures (95_test_vectors.md section 2) -/

/-- `E_xor(K, X) = K xor X`. -/
def eXor : Cipher := fun k x => .block (k ^^^ x)

/-- `E_toy`: `Y[i] = ((X[(i+1) mod 16] xor K[i]) + i) mod 256`. -/
def eToy : Cipher := fun k x =>
  .block (blockOfBytes ((List.range 16).map fun i => (blockByte x ((i + 1) % 16) ^^^ blockByte k i) + BitVec.ofNat 8 i))

/-- `E_trip`: fails on `Prefix(2)`. -/
def eTrip : Cipher := fun k x => if x = 2#128 then .error else .block (k ^^^ x)

/-- `E_bad`: fails for a key whose first byte is 0xbd. -/
def eBad : Cipher := fun k x => if blockByte k 0 = 0xBD#8 then .error else .block (k ^^^ x)

/-- A key written as a number. -/
def key16 (k : Block) : List Byte := blockToBytes k

def k0 : List Byte := key16 0#128
def k1 : List Byte := key16 0x000102030405060708090a0b0c0d0e0f#128
def k2 : List Byte := key16 0xc0000000000000000000000000000000#128
def kb : List Byte := key16 0xbd000000000000000000000000000000#128

/-- `M(n)`, byte i being `(0xa0 + i) mod 256`. -/
def msg (n : Nat) : List Byte := (List.range n).map fun i => BitVec.ofNat 8 (0xA0 + i)

/-- The state after reset with some inputs loaded. -/
def loaded (key nonce hdr din tag : List Byte) (tl : Byte) : State :=
  { State.reset with
    mem := { Memory.reset with key := key, nonce := nonce, hdr := hdr, din := din, tag := tag }, tlen := tl }

/-- KEY and DIN alone. -/
def keyed (key din : List Byte) : State := loaded key [] [] din [] 16#8

/-- The state a meaning answers, for tests; reset where it would answer none. -/
def after (o : StepOutcome) : State :=
  match o with
  | .next t => t
  | .fault _ => State.reset
  | .refused _ => State.reset

/-- BLK loaded. -/
def withBlk (s : State) (x : Block) : State := { s with mem := { s.mem with blk := x } }

/-! ### WellFormed smoke: one ill-formed term for each check -/

theorem test_wf_clr_refused : (Instr.clr .blk).wellFormed = false := by decide
theorem test_wf_put_refused : (Instr.put .dout 0#8).wellFormed = false := by decide
theorem test_wf_getb_refused : (Instr.getb .key 0#16).wellFormed = false := by decide
theorem test_wf_tmac_refused : (Instr.tmac 3#8).wellFormed = false := by decide

/-- The other commands are well formed whatever their operands are. -/
theorem test_wf_accepted :
    [Instr.nop, .setb 15#4 0xFF#8, .settl 255#8, .getl .key, .getr .tlen, .dbl, .mac, .tmac 2#8, .ctr, .enc, .dec,
      .clr .tag, .put .tag 0#8, .getb .res 0xFFFF#16].all Instr.wellFormed = true := by decide

/-! ### Decoding (95_test_vectors.md section 3.3) -/

theorem test_decode_host_words :
    decode 0x00000000#32 = .legal .nop ∧ decode 0x01000000#32 = .legal (.clr .key) ∧
    decode 0x01500000#32 = .legal (.clr .tag) ∧ decode 0x020000C0#32 = .legal (.put .key 0xC0#8) ∧
    decode 0x023000FF#32 = .legal (.put .din 0xFF#8) ∧ decode 0x02500001#32 = .legal (.put .tag 1#8) ∧
    decode 0x030F0080#32 = .legal (.setb 15#4 0x80#8) ∧ decode 0x03000000#32 = .legal (.setb 0#4 0#8) ∧
    decode 0x04000010#32 = .legal (.settl 16#8) ∧ decode 0x040000FF#32 = .legal (.settl 255#8) := by decide

theorem test_decode_reads :
    decode 0x0870000F#32 = .legal (.getb .res 15#16) ∧ decode 0x08400123#32 = .legal (.getb .dout 0x123#16) ∧
    decode 0x0810FFFF#32 = .legal (.getb .nonce 65535#16) ∧ decode 0x09000000#32 = .legal (.getl .key) ∧
    decode 0x09700000#32 = .legal (.getl .res) ∧ decode 0x0A000000#32 = .legal (.getr .status) ∧
    decode 0x0A100000#32 = .legal (.getr .tlen) := by decide

theorem test_decode_operations :
    decode 0x10000000#32 = .legal .dbl ∧ decode 0x11000000#32 = .legal .mac ∧
    decode 0x12000000#32 = .legal (.tmac 0#8) ∧ decode 0x12000002#32 = .legal (.tmac 2#8) ∧
    decode 0x13000000#32 = .legal .ctr ∧ decode 0x14000000#32 = .legal .enc ∧ decode 0x15000000#32 = .legal .dec := by
  decide

theorem test_decode_illegal_fields :
    ([0x00000001#32, 0x00100000#32, 0x01300001#32, 0x01310000#32, 0x02300100#32, 0x03100000#32, 0x03000100#32,
      0x04000100#32, 0x04010000#32, 0x08410000#32, 0x09400001#32, 0x10000001#32, 0x11100000#32, 0x12000100#32,
      0x15000001#32].map decode).all (· == .illegal .nonzeroField) = true := by decide

theorem test_decode_illegal_selectors :
    ([0x01600000#32, 0x01700000#32, 0x02400000#32, 0x02600000#32, 0x02700000#32, 0x08000000#32].map decode).all
      (· == .illegal .forbiddenSelector) = true ∧
    ([0x01800000#32, 0x02F00000#32, 0x08800000#32, 0x09800000#32, 0x0A200000#32].map decode).all
      (· == .illegal .reservedSelector) = true ∧
    ([0x12000003#32, 0x120000FF#32].map decode).all (· == .illegal .badDomainTag) = true := by decide

theorem test_decode_illegal_opcodes :
    ([0x05000000#32, 0x07000000#32, 0x0B000000#32, 0x0F000000#32, 0x16000000#32, 0x80000000#32, 0xFFFFFFFF#32].map
      decode).all (· == .illegal .unassignedOpcode) = true := by decide

theorem test_decodeTableWord : decodeTableWord 32 0x0870000F = some (.getb .res 15#16) := by decide

/-- A fetched word runs as the very next step. -/
theorem test_withFetchWord :
    step (State.reset.withFetchWord 32 0x04000004) =
      exec (.settl 4#8) { State.reset with cp := 1 } := by rfl

/-! ### Host access (section 3.3, the host-access sequence and BufferFull) -/

theorem test_nop : (after (exec .nop { State.reset with err := .illegalCommand, rdata := 6#32 })).err = .illegalCommand := by
  decide

theorem test_clr : (after (exec (.clr .din) (keyed [] (msg 3)))).mem.din = [] := by decide

theorem test_clr_blk_illegal : (after (exec (.clr .blk) State.reset)).err = .illegalCommand := by decide

theorem test_put : (after (exec (.put .din 0xA1#8) (keyed [] [0xA0#8]))).mem.din = [0xA0#8, 0xA1#8] := by decide

/-- The seventeenth `PUT TAG` is BufferFull and TAG keeps its bytes. -/
theorem test_put_full :
    (after (exec (.put .tag 0xF0#8) (loaded [] [] [] [] (msg 16) 16#8))).err = .bufferFull ∧
    (after (exec (.put .tag 0xF0#8) (loaded [] [] [] [] (msg 16) 16#8))).mem.tag = msg 16 := by decide

theorem test_setb_first : (after (exec (.setb 0#4 0x80#8) State.reset)).mem.blk = 0x80#128 <<< 120 := by decide

theorem test_setb_last :
    (after (exec (.setb 15#4 0x80#8) { State.reset with err := .illegalCommand })).mem.blk = 0x80#128 := by decide

theorem test_settl : (after (exec (.settl 200#8) State.reset)).tlen = 200#8 := by decide

theorem test_getb : (after (exec (.getb .din 1#16) (keyed [] (msg 2)))).rdata = 0xA1#32 := by decide

/-- The index at the length reads 0 and is no error. -/
theorem test_getb_at_length :
    (after (exec (.getb .din 2#16) { keyed [] (msg 2) with rdata := 0xA1#32 })).rdata = 0#32 := by decide

theorem test_getl : (after (exec (.getl .din) (keyed [] (msg 2)))).rdata = 2#32 := by decide
theorem test_getl_blk : (after (exec (.getl .blk) State.reset)).rdata = 16#32 := by decide

theorem test_getr_status : (after (exec (.getr .status) { State.reset with err := .illegalCommand })).rdata = 6#32 := by
  decide

theorem test_getr_tlen : (after (exec (.getr .tlen) State.reset)).rdata = 16#32 := by decide

/-! ### FieldDouble and Inc128 (sections 3.1, 3.2) -/

theorem test_dbl :
    (after (exec .dbl (withBlk State.reset 0xc0000000000000000000000000000000#128))).mem.res =
      0x80000000000000000000000000000087#128 := by decide

theorem test_fieldDouble_table :
    fieldDouble 0xffffffffffffffffffffffffffffffff#128 = 0xffffffffffffffffffffffffffffff79#128 ∧
    fieldDouble 0x8001020304050607ffffffffffffff80#128 = 0x00020406080a0c0fffffffffffffff87#128 ∧
    fieldDouble 0xfedcba98765432100123456789abcdef#128 = 0xfdb97530eca8642002468acf13579b59#128 ∧
    fieldDouble 0x40000000000000000000000000000000#128 = 0x80000000000000000000000000000000#128 := by decide

theorem test_inc128_table :
    inc128 0xffffffffffffffffffffffffffffffff#128 = 0#128 ∧ inc128 0x1ff#128 = 0x200#128 ∧
    inc128 0x0123456789abcdefffffffffffffffff#128 = 0x0123456789abcdf00000000000000000#128 := by decide

/-! ### MAC and TMAC (sections 3.4, 3.5) -/

/-- Sixteen bytes: subkey B, no padding, two calls. -/
theorem test_mac_16 :
    macCommand eXor (keyed k1 (msg 16)) =
      { keyed k1 (msg 16) with
        mem := { (keyed k1 (msg 16)).mem with res := 0xa0a2a4a6a8aaacaeb0b2b4b6b8babcbe#128 }
        trace := [(0x000102030405060708090a0b0c0d0e0f#128, 0#128),
          (0x000102030405060708090a0b0c0d0e0f#128, 0xa0a3a6a5acafaaa9b8bbbebdb4b7b2b1#128)] } := by
  decide +kernel

/-- Seventeen bytes under a cipher that is not linear: subkey P, padding, three calls. -/
theorem test_mac_17 :
    (macCommand eToy (keyed k2 (msg 17))).mem.res = 0xe7aeadbcc3bab9989fa6a5949b9128e0#128 ∧
    (macCommand eToy (keyed k2 (msg 17))).trace.length = 3 := by decide +kernel

theorem test_tmac :
    (tmacCommand eToy 1#8 (keyed k2 (msg 5))).mem.res = 0x64a9aeb39523212f352b31474543c86f#128 ∧
    (tmacCommand eToy 1#8 (keyed k2 (msg 5))).trace.map (·.2) =
      [0#128, 1#128, 0x60a4a8acb0911e1b282d22273c3936ba#128] := by decide +kernel

/-- A domain tag of 3 is illegal and leaves RES as it was. -/
theorem test_tmac_3 : after (exec (.tmac 3#8) State.reset) = { State.reset with err := .illegalCommand } := by decide

/-! ### CTR (section 3.6) -/

/-- The counter wraps to zero between the two blocks. -/
theorem test_ctr_wrap :
    (ctrCommand eXor (withBlk (keyed k1 (msg 17)) 0xffffffffffffffffffffffffffffffff#128)).mem.dout =
      List.replicate 16 0x5f#8 ++ [0xb0#8] ∧
    (ctrCommand eXor (withBlk (keyed k1 (msg 17)) 0xffffffffffffffffffffffffffffffff#128)).trace.map (·.2) =
      [0xffffffffffffffffffffffffffffffff#128, 0#128] := by decide +kernel

/-- With nothing to encrypt a key the cipher would reject goes unnoticed. -/
theorem test_ctr_empty : ctrCommand eBad (keyed kb []) = keyed kb [] := by decide +kernel

/-! ### ENC and DEC (section 3.7, case B under `E_toy`; section 3.8) -/

/-- Case B: nonce `10 11`, no header, plaintext `a0 a1 a2`, a tag of four bytes. -/
def caseB : State := loaded k2 [0x10#8, 0x11#8] [] (msg 3) [] 4#8

/-- Case B as the receiver holds it. -/
def caseBReceived (tag : List Byte) : State :=
  loaded k2 [0x10#8, 0x11#8] [] [0xeb#8, 0xb3#8, 0xbb#8] tag 4#8

theorem test_enc :
    (encCommand eToy caseB).mem.dout = [0xeb#8, 0xb3#8, 0xbb#8] ∧
    (encCommand eToy caseB).mem.tag = [0x60#8, 0x3c#8, 0x88#8, 0x0b#8] ∧
    (encCommand eToy caseB).trace.length = 9 := by decide +kernel

/-- Row 2 of section 3.8: the key's length is reported before the tag's. -/
theorem test_enc_priority : (encCommand eXor (loaded (msg 15) [] [] [] [] 17#8)).err = .invalidKeyLength := by decide

theorem test_dec :
    (decCommand eToy (caseBReceived [0x60#8, 0x3c#8, 0x88#8, 0x0b#8])).mem.dout = msg 3 ∧
    (decCommand eToy (caseBReceived [0x60#8, 0x3c#8, 0x88#8, 0x0b#8])).trace.length = 9 := by decide +kernel

/-- The forged tag of program P3. -/
theorem test_dec_forged :
    (decCommand eToy (caseBReceived [0x60#8, 0x3c#8, 0x88#8, 0x0a#8])).err = .authenticationFailure ∧
    (decCommand eToy (caseBReceived [0x60#8, 0x3c#8, 0x88#8, 0x0a#8])).trace.length = 8 := by decide +kernel

/-! ### Witnesses: for each statement with hypotheses, inputs that meet them, each clause at a boundary of its range

Where a statement's hypothesis speaks of the opaque cipher, the witness is a state on which no call is made. -/

theorem witness_DecodeOfEncode : (Instr.getb .res 0xFFFF#16).wellFormed = true ∧ (Instr.tmac 2#8).wellFormed = true := by
  decide

theorem witness_EncodeOfDecode : decode 0x0870FFFF#32 = .legal (.getb .res 0xFFFF#16) := by decide

theorem witness_OpcodeRowsAreDisjoint :
    decode 0x0250FFFF#32 = .illegal .nonzeroField ∧ decode 0x025000FF#32 = .legal (.put .tag 0xFF#8) ∧
    rowMatches (tableRow (.put .tag 0xFF#8)) 0x025000FF#32 = true ∧
    rowMatches (tableRow (.put .key 0x00#8)) 0x025000FF#32 = true := by decide

/-- A state in which the host is about to issue a word. -/
def issuing (w : Word) : State := { State.reset with host := [.command w] }

theorem witness_IllegalWordsSetErrOnly :
    ((issuing 0x05000000#32).host = .command 0x05000000#32 :: [] ∧
      decode 0x05000000#32 = .illegal .unassignedOpcode) ∧
    bits 0x05000000#32 31 24 ∉ opcodes ∧
    (bits 0x01800000#32 31 24 ∈ [0x01, 0x02, 0x08, 0x09] ∧ 8 ≤ bits 0x01800000#32 23 20) ∧
    (bits 0x0A200000#32 31 24 = 0x0A ∧ 2 ≤ bits 0x0A200000#32 23 20) ∧
    (bits 0x01600000#32 31 24 = 0x01 ∧ bits 0x01600000#32 23 20 ∈ [6, 7]) ∧
    (bits 0x02400000#32 31 24 = 0x02 ∧ bits 0x02400000#32 23 20 ∈ [4, 6, 7]) ∧
    (bits 0x08000000#32 31 24 = 0x08 ∧ bits 0x08000000#32 23 20 = 0) ∧
    (bits 0x12000003#32 31 24 = 0x12 ∧ 3 ≤ bits 0x12000003#32 7 0) := by decide

/-- A word that lies in no row of the table. -/
theorem witness_IllegalWordsSetErrOnly_row : ∀ i : Instr, rowMatches (tableRow i) 0x00000001#32 = false := by
  intro i
  cases i <;> (simp only [tableRow]; decide)

theorem witness_StepRunsDecodedCommand :
    (issuing 0x11000000#32).host = .command 0x11000000#32 :: [] ∧ decode 0x11000000#32 = .legal .mac := by decide

theorem witness_IdleStepHoldsState : State.reset.host = [] := by decide

theorem witness_ResetValues : ({ keyed k1 (msg 3) with host := [.reset] } : State).host = .reset :: [] := by decide

/-- The invariant at a full TAG and a full KEY, and a step from there. -/
theorem witness_StepKeepsInvariant :
    (loaded (msg 32) [] [] [] (msg 16) 16#8).Inv ∧
    step (loaded (msg 32) [] [] [] (msg 16) 16#8) = .next (loaded (msg 32) [] [] [] (msg 16) 16#8) := by
  refine ⟨⟨?_, ?_, ?_, ?_, ?_, ?_⟩, rfl⟩ <;> first | exact Nat.zero_le _ | decide

theorem witness_HostIndexAdvancesByOne :
    step (issuing 0x00000000#32) = .next { State.reset with cp := 1 } ∧ exec .nop State.reset = .next State.reset :=
  ⟨by rfl, rfl⟩

theorem witness_NopChangesNothing : bits 0x00000001#32 31 24 = 0x00 ∧ (0x00000001#32 : Word) ≠ 0x00000000#32 := by
  decide

theorem witness_ClrEmptiesItsBuffer :
    (Space.tag ≠ .blk ∧ Space.tag ≠ .res) ∧ (Space.blk = .blk ∨ Space.blk = .res) ∧
    bits 0x01600000#32 31 24 = 0x01 ∧ 6 ≤ bits 0x01600000#32 23 20 := by decide

theorem witness_PutAppendsOneByte :
    (Space.tag ≠ .dout ∧ Space.tag ≠ .blk ∧ Space.tag ≠ .res) ∧
    spaceLen (loaded [] [] [] [] (msg 16) 16#8).mem .tag = capacity .tag ∧
    spaceLen (loaded [] [] [] [] (msg 15) 16#8).mem .tag ≠ capacity .tag ∧
    (Space.dout = .dout ∨ Space.dout = .blk ∨ Space.dout = .res) ∧
    bits 0x02F00000#32 31 24 = 0x02 ∧
    bits 0x02F00000#32 23 20 ∈ [4, 6, 7, 8, 9, 10, 11, 12, 13, 14, 15] := by decide

/-- DIN at its capacity, whatever MAXLEN is, and one byte below it. -/
theorem witness_PutAppendsOneByte_maxLen :
    spaceLen (keyed [] (List.replicate Config.maxLen 0#8)).mem .din = capacity .din ∧
    spaceLen (keyed [] (List.replicate (Config.maxLen - 1) 0#8)).mem .din ≠ capacity .din := by
  constructor
  · simp [keyed, loaded, spaceLen, capacity]
  · simp only [keyed, loaded, spaceLen, capacity, List.length_replicate, Config.maxLen]
    omega

theorem witness_SettlStoresAnyByte :
    16 < (17#8 : Byte).toNat ∧ (loaded k1 [] [] [] [] 17#8).tlen = 17#8 ∧ (loaded k1 [] [] [] [] 17#8).mem.key.length = 16 := by decide

theorem witness_SetbWritesOneByte :
    bits 0x03100000#32 31 24 = 0x03 ∧ bits 0x03100000#32 23 20 ≠ 0 ∧
    bits 0x03000100#32 31 24 = 0x03 ∧ bits 0x03000100#32 15 8 ≠ 0 := by decide

theorem witness_GetbReadsByteOrZero :
    Space.din ≠ .key ∧ (2#16 : BitVec 16).toNat < spaceLen (keyed [] (msg 3)).mem .din ∧
    spaceLen (keyed [] (msg 3)).mem .din ≤ (3#16 : BitVec 16).toNat ∧
    bits 0x08000000#32 31 24 = 0x08 ∧ bits 0x08000000#32 23 20 = 0 ∧
    bits 0x08800000#32 31 24 = 0x08 ∧ 8 ≤ bits 0x08800000#32 23 20 ∧
    bits 0x08410000#32 31 24 = 0x08 ∧ bits 0x08410000#32 19 16 ≠ 0 := by decide

theorem witness_GetlReadsLength :
    (Space.res = .blk ∨ Space.res = .res) ∧ bits 0x09800000#32 31 24 = 0x09 ∧ 8 ≤ bits 0x09800000#32 23 20 ∧
    bits 0x09400001#32 31 24 = 0x09 ∧ bits 0x09400001#32 19 0 ≠ 0 := by decide

theorem witness_GetlReadsLength_inv : (keyed (msg 32) []).Inv := by
  refine ⟨?_, ?_, ?_, ?_, ?_, ?_⟩ <;> first | exact Nat.zero_le _ | decide

theorem witness_GetrReadsControlRegister : bits 0x0A200000#32 31 24 = 0x0A ∧ 2 ≤ bits 0x0A200000#32 23 20 := by decide

theorem witness_FieldDoubleByBytes : 14 < 15 := by decide

theorem witness_PaddedMessageBytes : 15 < 16 * blockCount [] ∧ 31 < 16 * blockCount (msg 17) := by decide

theorem witness_MacCommandFollowsTheRule :
    (keyed k1 []).mem.key.length = 16 ∧ (keyed (msg 15) []).mem.key.length ≠ 16 ∧
    (keyed (msg 17) []).mem.key.length ≠ 16 := by decide

theorem witness_TmacCommandFollowsTheRule :
    (2#8 : Byte).toNat ≤ 2 ∧ (keyed k1 []).mem.key.length = 16 ∧ State.reset.mem.key.length ≠ 16 ∧
    2 < (3#8 : Byte).toNat ∧ bits 0x12000003#32 31 24 = 0x12 ∧ 3 ≤ bits 0x12000003#32 7 0 ∧
    bits 0x12000100#32 31 24 = 0x12 ∧ bits 0x12000100#32 15 8 ≠ 0 := by decide

theorem witness_TaggedMacCallSequence :
    (match (taggedMacRun eXor k1 0#8 []).result with | .ok _ => true | .error _ => false) = true ∧
    (match (taggedMacRun eXor k1 2#8 (msg 5)).result with | .ok _ => true | .error _ => false) = true := by
  decide +kernel

theorem witness_Inc128ByBytes :
    (∀ j < 16, 14 < j → (blockByte 0x01ff#128 j).toNat = 0xFF) ∧
    ¬ (∀ j < 16, 13 < j → (blockByte 0x01ff#128 j).toNat = 0xFF) := by decide

theorem witness_CtrCommandFollowsTheRule :
    (keyed k1 []).mem.key.length = 16 ∧ State.reset.mem.key.length ≠ 16 := by decide

theorem witness_CtrOnEmptyDataMakesNoCall : (keyed k1 []).mem.key.length = 16 ∧ (keyed k1 []).mem.din = [] := by
  decide

theorem witness_CounterCipherSelfInverse :
    (match (counterCipherRun eXor k1 0#128 (msg 1)).result with | .ok y => y == [0xA0#8] | .error _ => false) = true := by
  decide +kernel

theorem witness_CtEqIsEquality :
    ([] : List Byte).length = ([] : List Byte).length ∧ (msg 16).length = (List.replicate 16 0#8).length := by decide

theorem witness_EncCommandFollowsTheRule :
    (loaded k1 [] [] [] [] 16#8).mem.key.length = 16 ∧ (loaded k1 [] [] [] [] 16#8).tlen.toNat ≤ 16 ∧
    16 < (loaded k1 [] [] [] [] 17#8).tlen.toNat ∧ State.reset.mem.key.length ≠ 16 := by decide

theorem witness_DecCommandFollowsTheRule :
    (loaded k1 [] [] [] (msg 16) 16#8).mem.key.length = 16 ∧ (loaded k1 [] [] [] (msg 16) 16#8).mem.tag.length ≤ 16 ∧
    State.reset.mem.key.length ≠ 16 := by decide

/-- An Encrypt that ends without an error (case C of section 3.7). -/
theorem witness_EncryptThenDecryptRoundTrip :
    (match (encryptRun eXor k1 [0xaa#8] [0xbb#8] [0xcc#8] 0).result with
      | .ok r => r == ([0x66#8], [])
      | .error _ => false) = true := by decide +kernel

/-- A DEC that leaves bytes in DOUT and ends with OK. -/
theorem witness_NoPlaintextWithoutVerifiedTag :
    (decCommand eToy (caseBReceived [0x60#8, 0x3c#8, 0x88#8, 0x0b#8])).mem.dout ≠ [] ∧
    (decCommand eToy (caseBReceived [0x60#8, 0x3c#8, 0x88#8, 0x0b#8])).err = .ok := by decide +kernel

theorem witness_TagMismatchReleasesNothing :
    (decCommand eToy (caseBReceived [0x60#8, 0x3c#8, 0x88#8, 0x0a#8])).err = .authenticationFailure := by decide +kernel

/-- Case D of section 3.7, and a tag that differs from it in the last byte. -/
theorem witness_ChangedTagIsRejected :
    (match (encryptRun eXor k1 [] [] [] 16).result with
      | .ok r => r == ([], key16 0x000306050c0f0a09181b1e1d14171212#128)
      | .error _ => false) = true ∧
    (key16 0x000306050c0f0a09181b1e1d14171213#128).length = (key16 0x000306050c0f0a09181b1e1d14171212#128).length ∧
    key16 0x000306050c0f0a09181b1e1d14171213#128 ≠ key16 0x000306050c0f0a09181b1e1d14171212#128 := by decide +kernel

theorem witness_FailingDecDoesNotDependOnTag :
    (decCommand eToy (caseBReceived [0x60#8, 0x3c#8, 0x88#8, 0x0a#8])).err = .authenticationFailure ∧
    (decCommand eToy (caseBReceived [0xff#8])).err = .authenticationFailure := by decide +kernel

/-- Row 12 of section 3.8, with an empty nonce and header: the third TaggedMAC fails. -/
theorem witness_CipherErrorBeforeAuthentication :
    (keyed k1 (msg 3)).mem.key.length = 16 ∧ anyFails eTrip (decMacCalls eTrip (keyBlock k1) [] [] (msg 3)) = true ∧
    (keyed kb []).mem.key.length = 16 ∧ anyFails eBad (decMacCalls eBad (keyBlock kb) [] [] []) = true := by
  decide +kernel

/-- A command with an answer for each shape of a term, legal and not. -/
theorem witness_PossibleResultCodes :
    exec .enc State.reset = .next { State.reset with err := .invalidKeyLength } ∧
    (Instr.clr .res).wellFormed = false ∧ exec (.clr .res) State.reset = .next { State.reset with err := .illegalCommand } := by
  refine ⟨rfl, rfl, rfl⟩

theorem witness_ErrorEffects :
    (Instr.tmac 3#8).wellFormed = false ∧ Space.tag.puttable = true ∧
    exec (.put .tag 0#8) (loaded [] [] [] [] (msg 16) 16#8) =
      .next { loaded [] [] [] [] (msg 16) 16#8 with err := .bufferFull } ∧
    exec .mac State.reset = .next { State.reset with err := .invalidKeyLength } ∧
    exec (.tmac 2#8) State.reset = .next { State.reset with err := .invalidKeyLength } ∧ (2#8 : Byte).toNat ≤ 2 ∧
    exec .ctr State.reset = .next { State.reset with err := .invalidKeyLength } ∧
    exec .enc (loaded k1 [] [] [] [] 17#8) = .next { loaded k1 [] [] [] [] 17#8 with err := .invalidTagLength } ∧
    exec .dec State.reset = .next { State.reset with err := .invalidKeyLength } := by
  refine ⟨rfl, rfl, rfl, rfl, rfl, by decide, rfl, rfl, rfl⟩

theorem witness_OperationsKeepTheirInputs :
    exec .dec (loaded (msg 17) [] [] [] (msg 4) 16#8) =
      .next { loaded (msg 17) [] [] [] (msg 4) 16#8 with err := .invalidKeyLength } ∧
    Instr.dec ∈ [Instr.dbl, .mac, .ctr, .enc, .dec] := by
  refine ⟨rfl, by decide⟩

theorem witness_OnlyItsWritersChangeAPiece :
    exec (.settl 4#8) State.reset = .next { State.reset with tlen := 4#8 } := by rfl

theorem witness_RepeatingACommand :
    (Instr.getb .blk 15#16).wellFormed = true ∧ exec (.getb .blk 15#16) State.reset = .next State.reset ∧
    exec (.setb 0#4 1#8) State.reset = .next (withBlk State.reset (1#128 <<< 120)) ∧
    exec (.setb 0#4 1#8) (withBlk State.reset (1#128 <<< 120)) = .next (withBlk State.reset (1#128 <<< 120)) :=
  ⟨rfl, rfl, rfl, rfl⟩

/-- Whatever the cipher answers, MAC with a 16-byte key makes a call. -/
theorem witness_CipherPortDiscipline : ∃ t, exec .mac (keyed k1 []) = .next t ∧ t.trace ≠ (keyed k1 []).trace := by
  refine ⟨_, rfl, ?_⟩
  simp only [macCommand, finishRes, macRun, show (keyed k1 []).mem.key.length = 16 by decide, if_true, runBind, ecall]
  cases Config.encryptBlock (keyBlock (keyed k1 []).mem.key) 0#128 with
  | error => simp [keyed, loaded, State.reset, endWithRes, appendTrace, setErr]
  | block y =>
    simp only []
    split <;> simp [keyed, loaded, State.reset, endWithRes, appendTrace, setErr]

theorem witness_CipherCallCounts :
    (macCommand eXor (keyed k1 [])).err = .ok ∧ (tmacCommand eXor 2#8 (keyed k1 [])).err = .ok ∧
    (ctrCommand eXor (keyed k1 (msg 17))).err = .ok ∧ (encCommand eXor (keyed k1 (msg 17))).err = .ok ∧
    (decCommand eXor (keyed k1 (msg 17))).err = .ok ∧
    (decCommand eToy (caseBReceived [0xff#8])).err = .authenticationFailure ∧
    (keyed (msg 15) []).mem.key.length ≠ 16 ∧ 16 < (loaded k1 [] [] [] [] 17#8).tlen.toNat ∧
    Instr.tmac 3#8 ∉ [Instr.mac, .tmac 0#8, .tmac 1#8, .tmac 2#8, .ctr, .enc, .dec] := by decide +kernel

theorem witness_NoCommandDependsOnErrOrTrace :
    exec (.put .tag 0xF0#8) (loaded [] [] [] [] (msg 16) 16#8) =
      .next { loaded [] [] [] [] (msg 16) 16#8 with err := .bufferFull } ∧
    Instr.put .tag 0xF0#8 ≠ .getr .status := ⟨rfl, by decide⟩

theorem witness_KeyBytesDoNotReachTheHost :
    Instr.getl .key ∉ [Instr.mac, .tmac 0#8, .tmac 1#8, .tmac 2#8, .ctr, .enc, .dec] ∧
    agreeButKeyBytes (keyed k1 (msg 3)) (keyed k2 (msg 3)) ∧
    exec (.getl .key) (keyed k1 (msg 3)) = .next { keyed k1 (msg 3) with rdata := 16#32 } := by
  refine ⟨by decide, ⟨by decide, rfl⟩, rfl⟩

/-- Two states with the same inputs that differ elsewhere. -/
theorem witness_ResultsDependOnInputsOnly :
    (caseBReceived [1#8]).mem.key = { caseBReceived [1#8] with err := .bufferFull, tlen := 0#8 }.mem.key ∧
    (caseBReceived [1#8]).mem.tag = { caseBReceived [1#8] with err := .bufferFull, tlen := 0#8 }.mem.tag := by decide

theorem witness_NoKeyAfterReset : Instr.tmac 2#8 ∈ [Instr.mac, .tmac 0#8, .tmac 1#8, .tmac 2#8, .ctr, .enc, .dec] := by
  decide

/-- A LOAD of TAG with as many bytes as it can hold, and of no bytes. -/
theorem witness_LoadLeavesExactlyItsBytes :
    Space.tag.puttable = true ∧ (msg 16).length ≤ capacity .tag ∧
    ({ State.reset with
      host := HostMove.command (encode (.clr .tag)) :: (msg 16).map fun b => .command (encode (.put .tag b)) } : State).host =
      (HostMove.command (encode (.clr .tag)) :: (msg 16).map fun b => .command (encode (.put .tag b))) ++ [] ∧
    ([] : List Byte).length ≤ capacity .tag := by
  refine ⟨rfl, by decide, by simp, by decide⟩

end Sys2Proof.Tests
end

section
/-!
PROOFS for 10_state.md: the values after reset (R24) and what the operation commands leave unchanged (R15).
The lemmas on the memory after an operation command say which outputs it writes, whatever the run answered.
-/

namespace Sys2Proof.Machine

open Sys2Proof.Pseudo

/-! ### Reset -/

theorem step_of_reset {s : State} {rest : List HostMove} (h : s.host = .reset :: rest) :
    step s = .next (resetInput rest) := by
  simp only [step, h]

theorem reset_spaceLen :
    ∀ sp ∈ [Space.key, .nonce, .hdr, .din, .dout, .tag], spaceLen State.reset.mem sp = 0 := by
  decide

/-- Settles O9: the reset input gives the pieces of `State.reset`, and those have the values of R24. -/
theorem resetValues : Obligations.ResetValues := by
  refine ⟨fun s rest h => ?afterResetMove, reset_spaceLen, rfl, rfl, rfl, rfl, rfl, rfl, rfl⟩
  case afterResetMove =>
    exact ⟨resetInput rest, step_of_reset h, reset_spaceLen, rfl, rfl, rfl, rfl, rfl, rfl, rfl⟩

/-! ### The memory after an operation command -/

/-- MAC and TMAC end with a new RES and no other write to memory (R71, R77, R117). -/
theorem finishRes_mem (r : Run Block) (s : State) : ∃ d, (finishRes r s).mem = { s.mem with res := d } := by
  obtain ⟨d, e, h⟩ := finishRes_eq_withRes r s
  exact ⟨d, by rw [h, withRes]⟩

/-- CTR and DEC end with a new DOUT and no other write to memory (R84, R95, R117). -/
theorem finishDout_mem (r : Run (List Byte)) (s : State) : ∃ x, (finishDout r s).mem = { s.mem with dout := x } := by
  obtain ⟨x, e, h⟩ := finishDout_eq_withDout r s
  exact ⟨x, by rw [h, withDout]⟩

/-- ENC ends with a new DOUT, a new TAG and no other write to memory (R94, R117). -/
theorem finishDoutTag_mem (r : Run (List Byte × List Byte)) (s : State) :
    ∃ x y, (finishDoutTag r s).mem = { s.mem with dout := x, tag := y } := by
  obtain ⟨x, y, e, h⟩ := finishDoutTag_eq_withDoutTag r s
  exact ⟨x, y, by rw [h, withDoutTag]⟩

/-- DEC replaces DOUT alone (R95). -/
theorem exec_dec_mem {s t : State} (h : exec .dec s = .next t) : ∃ x, t.mem = { s.mem with dout := x } := by
  obtain rfl : t = decCommand Config.encryptBlock s := exec_inv h
  exact finishDout_mem _ s

/-- An operation command replaces at most the three outputs DOUT, TAG and RES. -/
theorem exec_operation_mem {i : Instr} {s t : State} (h : exec i s = .next t)
    (hi : i ∈ [Instr.dbl, .mac, .ctr, .enc, .dec] ∨ ∃ d, i = .tmac d) :
    ∃ x y d, t.mem = { s.mem with dout := x, tag := y, res := d } := by
  have hdid := exec_inv h
  cases i with
  | dbl =>
    obtain rfl : t = endWithRes s (fieldDouble s.mem.blk) .ok := hdid
    exact ⟨_, _, _, endWithRes_mem ..⟩
  | mac =>
    obtain rfl : t = macCommand Config.encryptBlock s := hdid
    obtain ⟨d, hd⟩ := finishRes_mem (macRun Config.encryptBlock s.mem.key s.mem.din) s
    exact ⟨_, _, d, hd⟩
  | tmac t₀ =>
    obtain ⟨-, rfl⟩ | ⟨-, rfl⟩ := hdid
    · obtain ⟨d, hd⟩ := finishRes_mem (taggedMacRun Config.encryptBlock s.mem.key t₀ s.mem.din) s
      exact ⟨_, _, d, hd⟩
    · exact ⟨_, _, _, illegalCommand_mem s⟩
  | ctr =>
    obtain rfl : t = ctrCommand Config.encryptBlock s := hdid
    obtain ⟨x, hx⟩ := finishDout_mem (counterCipherRun Config.encryptBlock s.mem.key s.mem.blk s.mem.din) s
    exact ⟨x, _, _, hx⟩
  | enc =>
    obtain rfl : t = encCommand Config.encryptBlock s := hdid
    obtain ⟨x, y, hxy⟩ := finishDoutTag_mem
      (encryptRun Config.encryptBlock s.mem.key s.mem.nonce s.mem.hdr s.mem.din s.tlen.toNat) s
    exact ⟨x, y, _, hxy⟩
  | dec =>
    obtain ⟨x, hx⟩ := exec_dec_mem h
    exact ⟨x, _, _, hx⟩
  | _ => simp at hi

/-- A memory that differs in the three outputs alone reads the same at every other address. -/
theorem sameBytesOutside_of_outputs {s t : State} {x y : List Byte} {d : Block}
    (h : t.mem = { s.mem with dout := x, tag := y, res := d }) : sameBytesOutside [.dout, .tag, .res] s t := by
  refine sameBytesOutside_of_spaceBytes fun sp hsp => ?_
  rw [h]
  cases sp with
  | dout | tag | res => simp at hsp
  | key | nonce | hdr | din | blk => rfl

/-- Settles O44: an operation command replaces at most DOUT, TAG and RES, and DEC only DOUT. -/
theorem operationsKeepTheirInputs : Obligations.OperationsKeepTheirInputs := by
  intro i s t h hi
  constructor
  · obtain ⟨x, y, d, hmem⟩ := exec_operation_mem h hi
    exact sameBytesOutside_of_outputs hmem
  · rintro rfl j
    obtain ⟨x, hmem⟩ := exec_dec_mem h
    rw [hmem]
    rfl

end Sys2Proof.Machine
end

section
/-!
PROOFS for 30_encoding.md: the decoder is the case analysis of R49 and an Illegal word sets ERR alone (R50). Both rest on
`decode_legal_iff`: a word decodes to a command exactly when the command is legal and the word has its fields.
-/

namespace Sys2Proof.Machine

open Sys2Proof.Pseudo

/-! ### The selectors a command accepts (R48), in the decoder's form and in the spec's numbers -/

theorem clearable_eq_decide (sp : Space) : sp.clearable = decide (selOfSpace sp ≤ 5#4) := by
  cases sp <;> decide

theorem puttable_eq_decide (sp : Space) : sp.puttable = decide (selOfSpace sp ≤ 3#4 ∨ selOfSpace sp = 5#4) := by
  cases sp <;> decide

theorem readable_eq_decide (sp : Space) : sp.readable = decide (1#4 ≤ selOfSpace sp ∧ selOfSpace sp ≤ 7#4) := by
  cases sp <;> decide

theorem selOfSpace_le (sp : Space) : selOfSpace sp ≤ 7#4 := by
  cases sp <;> decide

theorem clearable_iff (sp : Space) : sp.clearable = true ↔ selNumber sp ≤ 5 := by
  cases sp <;> decide

theorem puttable_iff (sp : Space) : sp.puttable = true ↔ selNumber sp ∈ [0, 1, 2, 3, 5] := by
  cases sp <;> decide

theorem readable_iff (sp : Space) : sp.readable = true ↔ 1 ≤ selNumber sp := by
  cases sp <;> decide

theorem selNumber_le (sp : Space) : selNumber sp ≤ 7 := by
  cases sp <;> decide

theorem regNumber_le (r : CtrlReg) : regNumber r ≤ 1 := by
  cases r <;> decide

/-! ### What each branch of the decoder accepts -/

/-- The command `i` is legal and `f` are the fields of its word. -/
def IsLegalWith (i : Instr) (f : Fields) : Prop :=
  i.wellFormed = true ∧ encodeFields i = f

theorem fields_ext {f g : Fields} (hop : f.op = g.op) (hsel : f.sel = g.sel) (hix4 : f.ix4 = g.ix4)
    (hhi : f.hi = g.hi) (hlo : f.lo = g.lo) : f = g := by
  cases f
  cases g
  simp_all

theorem isLegalWith_of_decodeBare {f : Fields} {i j : Instr} (hj : IsLegalWith j ⟨f.op, 0#4, 0#4, 0#8, 0#8⟩)
    (h : decodeBare f j = .legal i) : IsLegalWith i f := by
  obtain ⟨⟨hsel, hix4, hhi, hlo⟩, rfl⟩ := decodeBare_legal_iff.mp h
  obtain ⟨hwf, hfields⟩ := hj
  exact ⟨hwf, hfields.trans (fields_ext rfl hsel.symm hix4.symm hhi.symm hlo.symm)⟩

/-- A guarded branch accepts only where its guard is met. -/
theorem legal_of_ite {p : Prop} [Decidable p] {d : Decoded} {r : IllegalReason} {i : Instr}
    (h : (if p then d else .illegal r) = .legal i) : p ∧ d = .legal i := by
  split at h
  · next hp => exact ⟨hp, h⟩
  · cases h

theorem isLegalWith_of_decodeClr {f : Fields} {i : Instr} (hop : f.op = 0x01#8) (h : decodeClr f = .legal i) :
    IsLegalWith i f := by
  obtain ⟨⟨hix4, hhi, hlo⟩, h⟩ := legal_of_ite h
  obtain ⟨sp, hsel, hok, rfl⟩ := decodeSpace_legal_iff.mp h
  rw [hsel, ← clearable_eq_decide] at hok
  exact ⟨hok, fields_ext hop.symm hsel.symm hix4.symm hhi.symm hlo.symm⟩

theorem isLegalWith_of_decodePut {f : Fields} {i : Instr} (hop : f.op = 0x02#8) (h : decodePut f = .legal i) :
    IsLegalWith i f := by
  obtain ⟨⟨hix4, hhi⟩, h⟩ := legal_of_ite h
  obtain ⟨sp, hsel, hok, rfl⟩ := decodeSpace_legal_iff.mp h
  rw [hsel, ← puttable_eq_decide] at hok
  exact ⟨hok, fields_ext hop.symm hsel.symm hix4.symm hhi.symm rfl⟩

theorem isLegalWith_of_decodeSetb {f : Fields} {i : Instr} (hop : f.op = 0x03#8) (h : decodeSetb f = .legal i) :
    IsLegalWith i f := by
  obtain ⟨⟨hsel, hhi⟩, h⟩ := legal_of_ite h
  obtain rfl := Decoded.legal.inj h
  exact ⟨rfl, fields_ext hop.symm hsel.symm rfl hhi.symm rfl⟩

theorem isLegalWith_of_decodeSettl {f : Fields} {i : Instr} (hop : f.op = 0x04#8) (h : decodeSettl f = .legal i) :
    IsLegalWith i f := by
  obtain ⟨⟨hsel, hix4, hhi⟩, h⟩ := legal_of_ite h
  obtain rfl := Decoded.legal.inj h
  exact ⟨rfl, fields_ext hop.symm hsel.symm hix4.symm hhi.symm rfl⟩

theorem isLegalWith_of_decodeGetb {f : Fields} {i : Instr} (hop : f.op = 0x08#8) (h : decodeGetb f = .legal i) :
    IsLegalWith i f := by
  obtain ⟨hix4, h⟩ := legal_of_ite h
  obtain ⟨sp, hsel, hok, rfl⟩ := decodeSpace_legal_iff.mp h
  rw [hsel, ← readable_eq_decide] at hok
  exact ⟨hok, fields_ext hop.symm hsel.symm hix4.symm BitVec.extractLsb'_append_eq_left
    BitVec.extractLsb'_append_eq_right⟩

theorem isLegalWith_of_decodeGetl {f : Fields} {i : Instr} (hop : f.op = 0x09#8) (h : decodeGetl f = .legal i) :
    IsLegalWith i f := by
  obtain ⟨⟨hix4, hhi, hlo⟩, h⟩ := legal_of_ite h
  obtain ⟨sp, hsel, -, rfl⟩ := decodeSpace_legal_iff.mp h
  exact ⟨rfl, fields_ext hop.symm hsel.symm hix4.symm hhi.symm hlo.symm⟩

theorem isLegalWith_of_decodeGetr {f : Fields} {i : Instr} (hop : f.op = 0x0A#8) (h : decodeGetr f = .legal i) :
    IsLegalWith i f := by
  obtain ⟨⟨hix4, hhi, hlo⟩, h⟩ := legal_of_ite h
  split at h
  · cases h
  · next r hr =>
    obtain rfl := Decoded.legal.inj h
    exact ⟨rfl, fields_ext hop.symm (eq_selOfCtrlReg hr).symm hix4.symm hhi.symm hlo.symm⟩

theorem isLegalWith_of_decodeTmac {f : Fields} {i : Instr} (hop : f.op = 0x12#8) (h : decodeTmac f = .legal i) :
    IsLegalWith i f := by
  obtain ⟨⟨hsel, hix4, hhi⟩, h⟩ := legal_of_ite h
  obtain ⟨hlo, h⟩ := legal_of_ite h
  obtain rfl := Decoded.legal.inj h
  exact ⟨decide_eq_true hlo, fields_ext hop.symm hsel.symm hix4.symm hhi.symm rfl⟩

/-! ### The decoder, both ways -/

/-- What the decoder accepts is a legal command, read from the fields of its word. -/
theorem isLegalWith_of_decodeFields {f : Fields} {i : Instr} (h : decodeFields f = .legal i) : IsLegalWith i f := by
  simp only [decodeFields] at h
  obtain ⟨hop, h⟩ | ⟨-, h⟩ := ite_eq_iff.mp h
  · exact isLegalWith_of_decodeBare ⟨rfl, by rw [hop]; rfl⟩ h
  obtain ⟨hop, h⟩ | ⟨-, h⟩ := ite_eq_iff.mp h
  · exact isLegalWith_of_decodeClr hop h
  obtain ⟨hop, h⟩ | ⟨-, h⟩ := ite_eq_iff.mp h
  · exact isLegalWith_of_decodePut hop h
  obtain ⟨hop, h⟩ | ⟨-, h⟩ := ite_eq_iff.mp h
  · exact isLegalWith_of_decodeSetb hop h
  obtain ⟨hop, h⟩ | ⟨-, h⟩ := ite_eq_iff.mp h
  · exact isLegalWith_of_decodeSettl hop h
  obtain ⟨hop, h⟩ | ⟨-, h⟩ := ite_eq_iff.mp h
  · exact isLegalWith_of_decodeGetb hop h
  obtain ⟨hop, h⟩ | ⟨-, h⟩ := ite_eq_iff.mp h
  · exact isLegalWith_of_decodeGetl hop h
  obtain ⟨hop, h⟩ | ⟨-, h⟩ := ite_eq_iff.mp h
  · exact isLegalWith_of_decodeGetr hop h
  obtain ⟨hop, h⟩ | ⟨-, h⟩ := ite_eq_iff.mp h
  · exact isLegalWith_of_decodeBare ⟨rfl, by rw [hop]; rfl⟩ h
  obtain ⟨hop, h⟩ | ⟨-, h⟩ := ite_eq_iff.mp h
  · exact isLegalWith_of_decodeBare ⟨rfl, by rw [hop]; rfl⟩ h
  obtain ⟨hop, h⟩ | ⟨-, h⟩ := ite_eq_iff.mp h
  · exact isLegalWith_of_decodeTmac hop h
  obtain ⟨hop, h⟩ | ⟨-, h⟩ := ite_eq_iff.mp h
  · exact isLegalWith_of_decodeBare ⟨rfl, by rw [hop]; rfl⟩ h
  obtain ⟨hop, h⟩ | ⟨-, h⟩ := ite_eq_iff.mp h
  · exact isLegalWith_of_decodeBare ⟨rfl, by rw [hop]; rfl⟩ h
  obtain ⟨hop, h⟩ | ⟨-, h⟩ := ite_eq_iff.mp h
  · exact isLegalWith_of_decodeBare ⟨rfl, by rw [hop]; rfl⟩ h
  cases h

/-- The decoder accepts the fields of every legal command. -/
theorem decodeFields_encodeFields {i : Instr} (h : i.wellFormed = true) : decodeFields (encodeFields i) = .legal i := by
  cases i with
  | clr buf =>
    exact decodeSpace_legal_iff.mpr ⟨buf, rfl, (clearable_eq_decide buf).symm.trans h, rfl⟩
  | put buf imm8 =>
    exact decodeSpace_legal_iff.mpr ⟨buf, rfl, (puttable_eq_decide buf).symm.trans h, rfl⟩
  | getb buf idx16 =>
    exact decodeSpace_legal_iff.mpr ⟨buf, rfl, (readable_eq_decide buf).symm.trans h, congrArg (Instr.getb buf) (idx16_split idx16).symm⟩
  | getl buf => exact decodeSpace_legal_iff.mpr ⟨buf, rfl, decide_eq_true (selOfSpace_le buf), rfl⟩
  | getr reg => cases reg <;> rfl
  | tmac t => exact if_pos (of_decide_eq_true h)
  | nop | setb | settl | dbl | mac | ctr | enc | dec => rfl

/-- R49: a word decodes to a command exactly when the command is legal and the word has its fields. -/
theorem decode_legal_iff {w : Word} {i : Instr} :
    decode w = .legal i ↔ i.wellFormed = true ∧ encodeFields i = fieldsOf w := by
  constructor
  · exact isLegalWith_of_decodeFields
  · rintro ⟨hi, hf⟩
    rw [decode, ← hf, decodeFields_encodeFields hi]

/-- The same with the fields taken out of the word by shift and remainder (R7, R46). -/
theorem decode_legal_iff_bits {w : Word} {i : Instr} :
    decode w = .legal i ↔ i.wellFormed = true ∧
      bits w 31 24 = (encodeFields i).op.toNat ∧ bits w 23 20 = (encodeFields i).sel.toNat ∧
      bits w 19 16 = (encodeFields i).ix4.toNat ∧ bits w 15 8 = (encodeFields i).hi.toNat ∧
      bits w 7 0 = (encodeFields i).lo.toNat := by
  rw [decode_legal_iff, bits_op, bits_sel, bits_ix4, bits_hi, bits_lo]
  refine and_congr_right fun _ => ⟨fun h => by simp [h], fun ⟨hop, hsel, hix4, hhi, hlo⟩ => ?_⟩
  exact (fields_ext (BitVec.eq_of_toNat_eq hop) (BitVec.eq_of_toNat_eq hsel) (BitVec.eq_of_toNat_eq hix4)
    (BitVec.eq_of_toNat_eq hhi) (BitVec.eq_of_toNat_eq hlo)).symm

/-! ### The fourteen conditions of R49 -/

/-- A command without operands: its opcode and `rest24 = 0`. -/
theorem decode_bare_iff (w : Word) {i : Instr} (hwf : i.wellFormed = true)
    (hi : encodeFields i = ⟨(encodeFields i).op, 0#4, 0#4, 0#8, 0#8⟩) :
    decode w = .legal i ↔ bits w 31 24 = (encodeFields i).op.toNat ∧ bits w 23 0 = 0 := by
  rw [decode_legal_iff_bits, hi, bits_rest24]
  simp only [hwf, true_and, BitVec.toNat_ofNat]
  omega

theorem decode_clr_iff (w : Word) (buf : Space) : decode w = .legal (.clr buf) ↔
    bits w 31 24 = 0x01 ∧ bits w 19 16 = 0 ∧ bits w 15 8 = 0 ∧ bits w 7 0 = 0 ∧ bits w 23 20 ≤ 5 ∧
      bits w 23 20 = selNumber buf := by
  rw [decode_legal_iff_bits, Instr.wellFormed, clearable_iff]
  simp only [encodeFields, selOfSpace_toNat, BitVec.toNat_ofNat]
  omega

theorem decode_put_iff (w : Word) (buf : Space) (imm8 : Byte) : decode w = .legal (.put buf imm8) ↔
    bits w 31 24 = 0x02 ∧ bits w 19 16 = 0 ∧ bits w 15 8 = 0 ∧ bits w 23 20 ∈ [0, 1, 2, 3, 5] ∧
      bits w 23 20 = selNumber buf ∧ bits w 7 0 = imm8.toNat := by
  rw [decode_legal_iff_bits, Instr.wellFormed, puttable_iff]
  simp only [encodeFields, selOfSpace_toNat, BitVec.toNat_ofNat]
  constructor
  · rintro ⟨hacc, hop, hsel, hix4, hhi, hlo⟩
    exact ⟨hop, hix4, hhi, hsel ▸ hacc, hsel, hlo⟩
  · rintro ⟨hop, hix4, hhi, hacc, hsel, hlo⟩
    exact ⟨hsel ▸ hacc, hop, hsel, hix4, hhi, hlo⟩

theorem decode_setb_iff (w : Word) (ix : BitVec 4) (imm8 : Byte) : decode w = .legal (.setb ix imm8) ↔
    bits w 31 24 = 0x03 ∧ bits w 23 20 = 0 ∧ bits w 15 8 = 0 ∧ bits w 19 16 = ix.toNat ∧ bits w 7 0 = imm8.toNat := by
  rw [decode_legal_iff_bits]
  simp only [encodeFields, Instr.wellFormed, true_and, BitVec.toNat_ofNat]
  omega

theorem decode_settl_iff (w : Word) (imm8 : Byte) : decode w = .legal (.settl imm8) ↔
    bits w 31 24 = 0x04 ∧ bits w 23 20 = 0 ∧ bits w 19 16 = 0 ∧ bits w 15 8 = 0 ∧ bits w 7 0 = imm8.toNat := by
  rw [decode_legal_iff_bits]
  simp only [encodeFields, Instr.wellFormed, true_and, BitVec.toNat_ofNat]

theorem decode_getb_iff (w : Word) (buf : Space) (idx16 : BitVec 16) : decode w = .legal (.getb buf idx16) ↔
    bits w 31 24 = 0x08 ∧ bits w 19 16 = 0 ∧ 1 ≤ bits w 23 20 ∧ bits w 23 20 ≤ 7 ∧ bits w 23 20 = selNumber buf ∧
      bits w 15 8 * 256 + bits w 7 0 = idx16.toNat := by
  rw [decode_legal_iff_bits, Instr.wellFormed, readable_iff]
  simp only [encodeFields, selOfSpace_toNat, BitVec.toNat_ofNat, BitVec.extractLsb'_toNat, Nat.shiftRight_eq_div_pow]
  have hidx := idx16.isLt
  have hsel := selNumber_le buf
  have hlo : bits w 7 0 < 256 := Nat.mod_lt _ (by decide)
  omega

theorem decode_getl_iff (w : Word) (buf : Space) : decode w = .legal (.getl buf) ↔
    bits w 31 24 = 0x09 ∧ bits w 19 16 = 0 ∧ bits w 15 8 = 0 ∧ bits w 7 0 = 0 ∧ bits w 23 20 ≤ 7 ∧
      bits w 23 20 = selNumber buf := by
  rw [decode_legal_iff_bits]
  simp only [encodeFields, Instr.wellFormed, true_and, selOfSpace_toNat, BitVec.toNat_ofNat]
  have hsel := selNumber_le buf
  omega

theorem decode_getr_iff (w : Word) (reg : CtrlReg) : decode w = .legal (.getr reg) ↔
    bits w 31 24 = 0x0A ∧ bits w 19 16 = 0 ∧ bits w 15 8 = 0 ∧ bits w 7 0 = 0 ∧ bits w 23 20 ≤ 1 ∧
      bits w 23 20 = regNumber reg := by
  rw [decode_legal_iff_bits]
  simp only [encodeFields, Instr.wellFormed, true_and, selOfCtrlReg_toNat, BitVec.toNat_ofNat]
  have hsel := regNumber_le reg
  omega

theorem decode_tmac_iff (w : Word) (t : Byte) : decode w = .legal (.tmac t) ↔
    bits w 31 24 = 0x12 ∧ bits w 23 20 = 0 ∧ bits w 19 16 = 0 ∧ bits w 15 8 = 0 ∧ bits w 7 0 ≤ 2 ∧
      bits w 7 0 = t.toNat := by
  rw [decode_legal_iff_bits]
  simp only [encodeFields, Instr.wellFormed, decide_eq_true_eq, BitVec.le_def, BitVec.toNat_ofNat]
  omega

/-- Settles O2: the fields of a legal command's word, read as numbers, are the condition of R49 for it. -/
theorem decodeFollowsTheRule : Obligations.DecodeFollowsTheRule := by
  intro w
  exact ⟨decode_bare_iff w rfl rfl, decode_clr_iff w, decode_put_iff w, decode_setb_iff w, decode_settl_iff w,
    decode_getb_iff w, decode_getl_iff w, decode_getr_iff w, decode_bare_iff w rfl rfl, decode_bare_iff w rfl rfl,
    decode_tmac_iff w, decode_bare_iff w rfl rfl, decode_bare_iff w rfl rfl, decode_bare_iff w rfl rfl⟩

/-! ### Illegal words (R50) -/

/-- The command word is used up, ERR is set and nothing else changes. -/
theorem step_of_illegal {s : State} {w : Word} {rest : List HostMove} {r : IllegalReason}
    (hs : s.host = .command w :: rest) (hd : decode w = .illegal r) :
    step s = .next { s with err := .illegalCommand, cp := s.cp + 1, host := rest } := by
  simp only [step, hs, hd]
  rfl

/-- The columns "op" and "legal when" of R48, on the fields of a word as numbers. -/
structure LegalWhen (op sel lo : Nat) : Prop where
  assigned : op ∈ opcodes
  clr : op = 0x01 → sel ≤ 5
  put : op = 0x02 → sel ∈ [0, 1, 2, 3, 5]
  getb : op = 0x08 → 1 ≤ sel ∧ sel ≤ 7
  getl : op = 0x09 → sel ≤ 7
  getr : op = 0x0A → sel ≤ 1
  tmac : op = 0x12 → lo ≤ 2

/-- A legal command meets its row, and its opcode is that of no other row. -/
theorem legalWhen_encodeFields {i : Instr} (h : i.wellFormed = true) :
    LegalWhen (encodeFields i).op.toNat (encodeFields i).sel.toNat (encodeFields i).lo.toNat := by
  cases i with
  | clr buf =>
    have hsel := (clearable_iff buf).mp h
    constructor <;> simp [encodeFields, opcodes, selOfSpace_toNat, hsel]
  | put buf imm8 =>
    have hsel := (puttable_iff buf).mp h
    constructor <;> simp_all [encodeFields, opcodes, selOfSpace_toNat]
  | getb buf idx16 =>
    have hsel := (readable_iff buf).mp h
    constructor <;> simp [encodeFields, opcodes, selOfSpace_toNat, hsel, selNumber_le]
  | getl buf => constructor <;> simp [encodeFields, opcodes, selOfSpace_toNat, selNumber_le]
  | getr reg => constructor <;> simp [encodeFields, opcodes, selOfCtrlReg_toNat, regNumber_le]
  | tmac t =>
    have ht : t.toNat ≤ 2 := BitVec.le_def.mp (of_decide_eq_true h)
    constructor <;> simp [encodeFields, opcodes, ht]
  | nop | setb | settl | dbl | mac | ctr | enc | dec => constructor <;> simp [encodeFields, opcodes]

/-- A word is Illegal unless its fields meet R48. -/
theorem instr?_eq_none_of_legalWhen {w : Word} (h : ¬ LegalWhen (bits w 31 24) (bits w 23 20) (bits w 7 0)) :
    (decode w).instr? = none := by
  rw [instr?_eq_none_iff]
  intro i hi
  obtain ⟨hwf, hf⟩ := decode_legal_iff.mp hi
  rw [bits_op, bits_sel, bits_lo, ← hf] at h
  exact h (legalWhen_encodeFields hwf)

/-- The word of every command lies in the command's row of match and mask (R48). -/
theorem rowMatches_encode (i : Instr) : rowMatches (tableRow i) (encode i) = true := by
  cases i with
  | nop => exact Laws.EncodedInRow.nop
  | clr buf => exact Laws.EncodedInRow.clr buf
  | put buf imm8 => exact Laws.EncodedInRow.put buf imm8
  | setb ix4 imm8 => exact Laws.EncodedInRow.setb ix4 imm8
  | settl imm8 => exact Laws.EncodedInRow.settl imm8
  | getb buf idx16 => exact Laws.EncodedInRow.getb buf idx16
  | getl buf => exact Laws.EncodedInRow.getl buf
  | getr reg => exact Laws.EncodedInRow.getr reg
  | dbl => exact Laws.EncodedInRow.dbl
  | mac => exact Laws.EncodedInRow.mac
  | tmac t => exact Laws.EncodedInRow.tmac t
  | ctr => exact Laws.EncodedInRow.ctr
  | enc => exact Laws.EncodedInRow.enc
  | dec => exact Laws.EncodedInRow.dec

/-- A legal word is the word of its command. -/
theorem encode_of_decode {w : Word} {i : Instr} (h : decode w = .legal i) : encode i = w := by
  obtain ⟨-, hf⟩ := decode_legal_iff.mp h
  rw [encode, hf, fieldsWord_fieldsOf]

/-- A word in no row of the map is Illegal. -/
theorem instr?_eq_none_of_no_row {w : Word} (h : ∀ i, rowMatches (tableRow i) w = false) :
    (decode w).instr? = none := by
  rw [instr?_eq_none_iff]
  intro i hi
  have hrow := rowMatches_encode i
  rw [encode_of_decode hi, h i] at hrow
  cases hrow

/-- Settles O6: each listed word fails the column of R48 for its opcode, or lies in no row. -/
theorem illegalWordsSetErrOnly : Obligations.IllegalWordsSetErrOnly := by
  refine ⟨fun _ _ _ _ => step_of_illegal, fun w hop => ?opcode, fun w => instr?_eq_none_of_no_row,
    fun w hop hsel => ?reservedSelector, fun w hop hsel => ?reservedRegister, fun w hop hsel => ?clrOfRegister,
    fun w hop hsel => ?putToOutput, fun w hop hsel => ?getbOfKey, fun w hop hlo => ?domainTag⟩
  all_goals refine instr?_eq_none_of_legalWhen fun hl => ?_
  case opcode => exact hop hl.assigned
  case reservedSelector =>
    have hclr := hl.clr
    have hput := hl.put
    have hgetb := hl.getb
    have hgetl := hl.getl
    simp only [List.mem_cons, List.not_mem_nil, or_false] at hop hput
    omega
  case reservedRegister =>
    have hgetr := hl.getr hop
    omega
  case clrOfRegister =>
    have hclr := hl.clr hop
    simp only [List.mem_cons, List.not_mem_nil, or_false] at hsel
    omega
  case putToOutput =>
    have hput := hl.put hop
    simp only [List.mem_cons, List.not_mem_nil, or_false] at hsel hput
    omega
  case getbOfKey =>
    have hgetb := hl.getb hop
    omega
  case domainTag =>
    have htmac := hl.tmac hop
    omega

end Sys2Proof.Machine
end

section
/-!
PROOFS for 40_fielddouble.md: FieldDouble as arithmetic on the number of a block (R60) and the command DBL (R62).
-/

namespace Sys2Proof.Machine

open Sys2Proof.Pseudo

/-! ### FieldDouble (R60) -/

/-- The tested bit is the top bit of the input's number. -/
theorem block_msb_iff (x : Block) : x.msb = true ↔ x.toNat >>> 127 = 1 := by
  have hx : x.toNat < 2 ^ 128 := x.isLt
  rw [BitVec.msb_eq_decide, decide_eq_true_iff, Nat.shiftRight_eq_div_pow]
  omega

/-- The shift drops the top bit: it doubles the number modulo 2^128. -/
theorem block_shiftLeft_one_toNat (x : Block) : (x <<< 1).toNat = 2 * x.toNat % 2 ^ 128 := by
  rw [BitVec.toNat_shiftLeft, Nat.shiftLeft_eq, pow_one, Nat.mul_comm]

theorem fieldDouble_toNat (x : Block) :
    (fieldDouble x).toNat =
      if x.toNat >>> 127 = 1 then (2 * x.toNat % 2 ^ 128) ^^^ 0x87 else 2 * x.toNat % 2 ^ 128 := by
  unfold fieldDouble
  by_cases h : x.msb = true
  · rw [if_pos h, if_pos ((block_msb_iff x).mp h), BitVec.toNat_xor, block_shiftLeft_one_toNat]
    rfl
  · rw [if_neg h, if_neg (mt (block_msb_iff x).mpr h), block_shiftLeft_one_toNat]

/-! ### DBL (R62) -/

/-- A command that ends with RES writes no other address. -/
theorem sameBytesOutside_endWithRes (s : State) (d : Block) (e : ErrCode) :
    sameBytesOutside [.res] s (endWithRes s d e) := by
  refine sameBytesOutside_of_spaceBytes fun sp hsp => ?_
  rw [endWithRes_mem]
  cases sp with
  | res => simp at hsp
  | key | nonce | hdr | din | dout | tag | blk => rfl

/-- DBL has one outcome, whatever the state. -/
theorem exec_dbl (s : State) : exec .dbl s = .next (endWithRes s (fieldDouble s.mem.blk) .ok) := rfl

/-- Settles O22: DBL ends with RES, whose number is R60's, and with no other write. -/
theorem dblDoublesTheBlockRegister : Obligations.DblDoublesTheBlockRegister := by
  intro s
  have hword : encode .dbl = 0x10000000#32 := by decide
  exact ⟨hword, _, exec_dbl s, fieldDouble_toNat s.mem.blk, endWithRes_err .., sameBytesOutside_endWithRes s _ _,
    endWithRes_tlen .., endWithRes_rdata .., endWithRes_trace .., endWithRes_cp .., endWithRes_host ..⟩

end Sys2Proof.Machine
end

section
/-!
PROOFS for 41_mac.md: the engine's recursive run is the computation by block index (R65 to R69), and the command MAC (R71).
The key fact is `macRun_planned`: with a 16-byte key MAC intends the calls `macCalls` in order and then has the value D_n.
-/

namespace Sys2Proof.Machine

open Sys2Proof.Pseudo

/-! ### The padded message (R66) -/

theorem noPadding_iff (m : List Byte) : noPadding m = true ↔ 0 < m.length ∧ m.length % 16 = 0 :=
  decide_eq_true_iff

theorem padMessage_of_noPadding {m : List Byte} (h : noPadding m = true) : padMessage m = m := if_pos h

theorem padMessage_of_not_noPadding {m : List Byte} (h : ¬ noPadding m = true) :
    padMessage m = m ++ 0x80#8 :: List.replicate (15 - m.length % 16) 0#8 := if_neg h

theorem padMessage_length (m : List Byte) : (padMessage m).length = 16 * blockCount m := by
  unfold blockCount
  by_cases h : noPadding m = true
  · rw [padMessage_of_noPadding h, if_pos ((noPadding_iff m).mp h)]
    have := (noPadding_iff m).mp h
    omega
  · rw [padMessage_of_not_noPadding h, if_neg (mt (noPadding_iff m).mpr h)]
    simp only [List.length_append, List.length_cons, List.length_replicate]
    omega

/-- The bytes of the padded message are M's own, then 0x80, then zeros. -/
theorem padMessage_getElem? {m : List Byte} {i : Nat} (hi : i < 16 * blockCount m) :
    (padMessage m)[i]? = some (paddedByte m i) := by
  rw [← padMessage_length] at hi
  unfold paddedByte
  by_cases hm : i < m.length
  · have hown : (padMessage m)[i]? = m[i]? := by
      by_cases h : noPadding m = true
      · rw [padMessage_of_noPadding h]
      · rw [padMessage_of_not_noPadding h, List.getElem?_append_left hm]
    rw [if_pos hm, hown, List.getElem?_eq_getElem hm, Option.getD_some]
  · have h : ¬ noPadding m = true := fun h => hm (by rwa [padMessage_of_noPadding h] at hi)
    rw [padMessage_of_not_noPadding h] at hi ⊢
    simp only [List.length_append, List.length_cons, List.length_replicate] at hi
    rw [if_neg hm, List.getElem?_append_right (Nat.le_of_not_lt hm), List.getElem?_cons, List.getElem?_replicate]
    by_cases hsep : i = m.length
    · rw [if_pos (by omega), if_pos hsep]
    · rw [if_neg (by omega), if_neg hsep, if_pos (by omega)]

/-- Block `j` of the padded message, cut out of it or put together from its bytes. -/
theorem padMessage_block {m : List Byte} {j : Nat} (hj : j < blockCount m) :
    blockOfBytes (((padMessage m).drop (16 * j)).take 16) = paddedBlock m j := by
  unfold paddedBlock
  congr 1
  apply List.ext_getElem?
  intro i
  rw [List.getElem?_take, List.getElem?_drop, List.getElem?_map]
  by_cases hi : i < 16
  · rw [if_pos hi, padMessage_getElem? (by omega), List.getElem?_range hi, Option.map_some]
  · rw [if_neg hi, List.getElem?_eq_none (by simpa using hi), Option.map_none]

/-! ### Masking (R67) -/

theorem maskedBlocks_eq_map (L : Block) (m : List Byte) :
    maskedBlocks L m = (List.range (blockCount m)).map (maskedBlock L m) := by
  have hcount : (padMessage m).length / 16 = blockCount m := by rw [padMessage_length]; omega
  have hsubkey : (if noPadding m then fieldDouble L else fieldDouble (fieldDouble L)) = subkey L m := by
    simp only [noPadding_iff, subkey]
  have hblocks : takeBlocks (blockCount m) (padMessage m) = (List.range' 0 (blockCount m)).map (paddedBlock m) := by
    rw [takeBlocks_eq_map, List.range_eq_range']
    exact List.map_congr_left fun j hj => padMessage_block (by simpa using hj)
  rw [maskedBlocks, hcount, hsubkey, hblocks, maskLast_map, Nat.zero_add, List.range_eq_range']
  rfl

/-! ### Chaining (R68, R69) -/

/-- The call number `j` of the chain, `(K, D_j xor Q_j)`. -/
def chainCall (E : Cipher) (K : Block) (m : List Byte) (j : Nat) : Call :=
  (K, chainValue E K m j ^^^ maskedBlock (answer E K 0#128) m j)

theorem macCalls_eq (E : Cipher) (K : Block) (m : List Byte) :
    macCalls E K m = [(K, 0#128)] ++ (List.range (blockCount m)).map (chainCall E K m) := rfl

/-- From `D_a` on, the chain over the next `n` blocks intends their calls and ends with `D_(a+n)`. -/
theorem chainBlocks_planned (E : Cipher) (K : Block) (m : List Byte) (a n : Nat) :
    chainBlocks E K (chainValue E K m a) ((List.range' a n).map (maskedBlock (answer E K 0#128) m)) =
      planned E ((List.range' a n).map (chainCall E K m)) (chainValue E K m (a + n)) := by
  induction n generalizing a with
  | zero => exact runPure_planned E _
  | succ n ih =>
    have hrest := ih (a + 1)
    rw [Nat.add_right_comm] at hrest
    rw [List.range'_succ, List.map_cons, List.map_cons, chainBlocks, ecall_planned]
    exact runBind_planned hrest

theorem macRun_planned (E : Cipher) {K : List Byte} (m : List Byte) (h : K.length = 16) :
    macRun E K m = planned E (macCalls E (keyBlock K) m) (digest E (keyBlock K) m) := by
  have hchain := chainBlocks_planned E (keyBlock K) m 0 (blockCount m)
  rw [← List.range_eq_range', ← maskedBlocks_eq_map, Nat.zero_add] at hchain
  rw [macRun, if_pos h, ecall_planned, macCalls_eq]
  exact runBind_planned hchain

/-! ### MAC (R71) -/

/-- A MAC with a 16-byte KEY leaves the digest, or what a failing call leaves, for any message (MAC and TMAC). -/
theorem finishRes_macRun (E : Cipher) (m : List Byte) {s : State} (h : s.mem.key.length = 16) :
    finishRes (macRun E s.mem.key m) s = afterMac E m s := by
  rw [macRun_planned E m h, finishRes_planned]
  rfl

/-- With any other key length no call is made (R70). -/
theorem finishRes_macRun_of_length_ne (E : Cipher) (m : List Byte) {s : State} (h : s.mem.key.length ≠ 16) :
    finishRes (macRun E s.mem.key m) s = withRes s 0#128 .invalidKeyLength [] := by
  rw [macRun_of_length_ne E m h]
  rfl

/-- MAC has one outcome, whatever the state. -/
theorem exec_mac (s : State) : exec .mac s = .next (macCommand Config.encryptBlock s) := rfl

/-- Settles O26: with a 16-byte KEY the run of MAC is the planned one of R65 to R69, with any other it makes no call. -/
theorem macCommandFollowsTheRule : Obligations.MacCommandFollowsTheRule := by
  refine ⟨by decide, fun s => ⟨fun hkey => ?keyFits, fun hkey => ?keyRefused⟩⟩
  case keyFits =>
    have hmac : ∀ E : Cipher, macCommand E s = afterMac E s.mem.din s := fun E => finishRes_macRun E s.mem.din hkey
    exact ⟨hmac, by rw [exec_mac, hmac]⟩
  case keyRefused =>
    rw [exec_mac, macCommand, finishRes_macRun_of_length_ne _ _ hkey]

end Sys2Proof.Machine
end

section
/-!
PROOFS for 42_taggedmac.md: TMAC is MAC of the tagged message (R76, R77), so its outcomes are those of `finishRes_macRun`.
-/

namespace Sys2Proof.Machine

open Sys2Proof.Pseudo

/-! ### The word (R48, R50) -/

/-- The word of TMAC is its row's match plus the operand, legal or not. -/
theorem encode_tmac_toNat (t : Byte) : (encode (.tmac t)).toNat = 0x12000000 + t.toNat := by
  rw [encode, fieldsWord_toNat]
  simp [encodeFields]

/-- No other command has TMAC's opcode. -/
theorem eq_tmac_of_op {i : Instr} (h : (encodeFields i).op = 0x12#8) : ∃ t, i = .tmac t := by
  cases i with
  | tmac t => exact ⟨t, rfl⟩
  | nop | clr | put | setb | settl | getb | getl | getr | dbl | mac | ctr | enc | dec =>
    simp [encodeFields] at h

/-- A word with TMAC's opcode that decodes at all decodes to TMAC. -/
theorem eq_tmac_of_decode {w : Word} {i : Instr} (hop : bits w 31 24 = 0x12) (h : decode w = .legal i) :
    ∃ t, i = .tmac t := by
  obtain ⟨-, hiop, -⟩ := decode_legal_iff_bits.mp h
  exact eq_tmac_of_op (BitVec.eq_of_toNat_eq (hiop.symm.trans hop))

/-! ### TMAC (R76, R77) -/

theorem tmacCommand_eq_finishRes (E : Cipher) (t : Byte) (s : State) :
    tmacCommand E t s = finishRes (macRun E s.mem.key (tagged t s.mem.din)) s := by
  rw [tmacCommand, taggedMacRun, domainBlock_append]

/-- Settles O27: TMAC is MAC of the tagged message for a legal `t`; a word of its opcode decodes to TMAC or not at all. -/
theorem tmacCommandFollowsTheRule : Obligations.TmacCommandFollowsTheRule := by
  refine ⟨fun s t => ⟨encode_tmac_toNat t, fun ht hkey => ?keyFits, fun ht hkey => ?keyRefused, fun ht => ?badTag⟩,
    fun w hop hbad => ?illegalWord⟩
  case keyFits =>
    have htmac : ∀ E : Cipher, tmacCommand E t s = afterMac E (tagged t s.mem.din) s := fun E =>
      (tmacCommand_eq_finishRes E t s).trans (finishRes_macRun E _ hkey)
    exact ⟨htmac, by rw [exec_tmac_of (BitVec.le_def.mpr ht), htmac]⟩
  case keyRefused =>
    rw [exec_tmac_of (BitVec.le_def.mpr ht), tmacCommand_eq_finishRes, finishRes_macRun_of_length_ne _ _ hkey]
  case badTag => exact exec_tmac_illegal (mt BitVec.le_def.mp (Nat.not_le_of_gt ht)) s
  case illegalWord =>
    rw [instr?_eq_none_iff]
    intro i hi
    obtain ⟨t, rfl⟩ := eq_tmac_of_decode hop hi
    have hlegal := (decode_tmac_iff w t).mp hi
    omega

end Sys2Proof.Machine
end

section
/-!
PROOFS for 43_countercipher.md: Inc128 by bytes (R80), the keystream run by block index (R81) and the command CTR (R84).
The key facts are `two_fifty_six_pow_dvd_succ_iff` (a carry passes exactly the bytes 0xff) and `ctrBlocks_planned` (the
recursive run intends the calls `ctrCalls` in order and then has the value `ctrOut`).
-/

namespace Sys2Proof.Machine

open Sys2Proof.Pseudo

/-! ### Inc128 (R80) -/

/-- Byte `i` of a block is a digit of its number to the base 256. -/
theorem blockByte_toNat (x : Block) (i : Nat) : (blockByte x i).toNat = x.toNat / 256 ^ (15 - i) % 256 := by
  rw [blockByte, BitVec.extractLsb'_toNat, Nat.shiftRight_eq_div_pow, pow_mul]
  rfl

/-- The increment reaches digit `n`, that is `256 ^ n` divides the successor, exactly when every digit below is 0xff. -/
theorem two_fifty_six_pow_dvd_succ_iff (a n : Nat) : 256 ^ n ∣ a + 1 ↔ ∀ k < n, a / 256 ^ k % 256 = 0xFF := by
  induction n with
  | zero => simp
  | succ n ih =>
    rw [Nat.forall_lt_succ_right, ← ih]
    have hdigit (h : 256 ^ n ∣ a + 1) : 256 ^ (n + 1) ∣ a + 1 ↔ a / 256 ^ n % 256 = 0xFF := by
      have hquot : (a + 1) / 256 ^ n = a / 256 ^ n + 1 := Nat.succ_div_of_dvd h
      rw [← Nat.mul_div_cancel' h, pow_succ, Nat.mul_dvd_mul_iff_left (by positivity), hquot]
      omega
    constructor
    · intro h
      have hn : 256 ^ n ∣ a + 1 := (pow_dvd_pow 256 n.le_succ).trans h
      exact ⟨hn, (hdigit hn).mp h⟩
    · rintro ⟨hn, hff⟩
      exact (hdigit hn).mpr hff

/-- All bytes after byte `i` are 0xff exactly when the increment carries into byte `i`. -/
theorem bytesAfter_eq_ff_iff (x : Block) {i : Nat} (hi : i < 16) :
    (∀ j, i < j → j < 16 → (blockByte x j).toNat = 0xFF) ↔ 256 ^ (15 - i) ∣ x.toNat + 1 := by
  rw [two_fifty_six_pow_dvd_succ_iff]
  constructor
  · intro h k hk
    have hbyte := h (15 - k) (by omega) (by omega)
    rwa [blockByte_toNat, Nat.sub_sub_self (by omega)] at hbyte
  · intro h j hij hj
    rw [blockByte_toNat]
    exact h (15 - j) (by omega)

/-- The reduction modulo 2^128 loses no digit of the incremented number that a byte shows. -/
theorem blockByte_inc128_toNat (x : Block) (i : Nat) :
    (blockByte (inc128 x) i).toNat = (x.toNat + 1) / 256 ^ (15 - i) % 256 := by
  have hdvd : 256 ^ (15 - i) * 256 ∣ 2 ^ 128 := by
    rw [← pow_succ, show 2 ^ 128 = 256 ^ 16 by norm_num]
    exact pow_dvd_pow 256 (by omega)
  rw [blockByte_toNat, inc128_toNat, ← Nat.mod_mul_right_div_self, Nat.mod_mod_of_dvd _ hdvd,
    Nat.mod_mul_right_div_self]

/-- Settles O29: byte `i` is a digit to the base 256, and it grows exactly when a carry reaches it. -/
theorem inc128ByBytes : Obligations.Inc128ByBytes := by
  intro x
  refine ⟨inc128_toNat x, fun i hi => ?_⟩
  rw [bytesAfter_eq_ff_iff x hi, blockByte_inc128_toNat, blockByte_toNat]
  constructor
  · intro hcarry
    rw [Nat.succ_div_of_dvd hcarry, Nat.mod_add_mod]
  · intro hstop
    rw [Nat.succ_div_of_not_dvd hstop]

/-! ### The counter (R81) -/

/-- Counter `j` from the incremented block is counter `j + 1` from the block. -/
theorem counter_inc128 (S : Block) (j : Nat) :
    BitVec.ofNat 128 ((inc128 S).toNat + j) = BitVec.ofNat 128 (S.toNat + (j + 1)) := by
  apply BitVec.eq_of_toNat_eq
  rw [BitVec.toNat_ofNat, BitVec.toNat_ofNat, inc128_toNat, Nat.mod_add_mod, Nat.add_right_comm, Nat.add_assoc]

theorem keystreamBlock_zero (E : Cipher) (K S : Block) : keystreamBlock E K S 0 = answer E K S := by
  rw [keystreamBlock, Nat.add_zero, BitVec.ofNat_toNat, BitVec.setWidth_eq]

theorem keystreamBlock_inc128 (E : Cipher) (K S : Block) (j : Nat) :
    keystreamBlock E K (inc128 S) j = keystreamBlock E K S (j + 1) := by
  rw [keystreamBlock, counter_inc128, keystreamBlock]

/-! ### The first chunk and the rest (R81) -/

theorem ceil16_drop {x : List Byte} {n : Nat} (h : ceil16 x.length = n + 1) : ceil16 (x.drop 16).length = n := by
  rw [List.length_drop]
  unfold ceil16 at *
  omega

theorem ctrCalls_cons {x : List Byte} {n : Nat} (K S : Block) (h : ceil16 x.length = n + 1) :
    ctrCalls K S x = (K, S) :: ctrCalls K (inc128 S) (x.drop 16) := by
  rw [ctrCalls, h, List.range_succ_eq_map, List.map_cons, List.map_map, Nat.add_zero, BitVec.ofNat_toNat,
    BitVec.setWidth_eq, ctrCalls, ceil16_drop h]
  simp only [counter_inc128]
  rfl

theorem ctrOut_eq_append (E : Cipher) (K S : Block) (x : List Byte) :
    ctrOut E K S x = xorChunk (x.take 16) (answer E K S) ++ ctrOut E K (inc128 S) (x.drop 16) := by
  apply List.ext_getElem?
  intro i
  rw [ctrOut_getElem?, List.getElem?_append, xorChunk_length, List.length_take]
  split
  case isTrue hi =>
    rw [xorChunk_getElem? _ _ (by omega), List.getElem?_take_of_lt (by omega), Nat.div_eq_of_lt (by omega),
      Nat.mod_eq_of_lt (by omega), keystreamBlock_zero]
  case isFalse hi =>
    by_cases hx : x.length ≤ i
    · rw [List.getElem?_eq_none hx, ctrOut_getElem?, List.getElem?_drop, List.getElem?_eq_none (by omega)]
      rfl
    · obtain ⟨k, rfl⟩ : ∃ k, i = 16 + k := Nat.exists_eq_add_of_le (by omega)
      have hlen : min (min 16 x.length) 16 = 16 := by omega
      rw [hlen, Nat.add_sub_cancel_left, ctrOut_getElem?, List.getElem?_drop, keystreamBlock_inc128,
        show (16 + k) / 16 = k / 16 + 1 by omega, Nat.add_mod_left]

/-! ### CounterCipher (R81) -/

/-- A computation on the value intends no further call. -/
theorem runBind_planned_map {α β : Type} (E : Cipher) (cs : List Call) (v : α) {f : α → β} :
    runBind (planned E cs v) (fun a => runPure (f a)) = planned E cs (f v) := by
  have h := runBind_planned (cs := cs) (f := fun a => runPure (f a)) (runPure_planned E (f v))
  rwa [List.append_nil] at h

theorem ctrBlocks_planned (E : Cipher) (K S : Block) {x : List Byte} {n : Nat} (h : ceil16 x.length = n) :
    ctrBlocks E K n S x = planned E (ctrCalls K S x) (ctrOut E K S x) := by
  induction n generalizing S x with
  | zero =>
    obtain rfl : x = [] := List.length_eq_zero_iff.mp (by unfold ceil16 at h; omega)
    exact runPure_planned E _
  | succ n ih =>
    rw [ctrBlocks, ctrCalls_cons K S h, ctrOut_eq_append, ecall_planned]
    apply runBind_planned (cs := [(K, S)])
    rw [ih (inc128 S) (ceil16_drop h)]
    exact runBind_planned_map E _ _

theorem counterCipherRun_planned (E : Cipher) {K : List Byte} (S : Block) (x : List Byte) (h : K.length = 16) :
    counterCipherRun E K S x = planned E (ctrCalls (keyBlock K) S x) (ctrOut E (keyBlock K) S x) := by
  rw [counterCipherRun, if_pos h]
  exact ctrBlocks_planned E (keyBlock K) S rfl

/-! ### CTR (R82 to R84) -/

theorem ctrCommand_eq_afterCtr (E : Cipher) {s : State} (h : s.mem.key.length = 16) :
    ctrCommand E s = afterCtr E s := by
  rw [ctrCommand, counterCipherRun_planned E _ _ h, finishDout_planned]
  rfl

/-- With any other key length no call is made (R83). -/
theorem ctrCommand_of_length_ne (E : Cipher) {s : State} (h : s.mem.key.length ≠ 16) :
    ctrCommand E s = withDout s [] .invalidKeyLength [] := by
  rw [ctrCommand, counterCipherRun_of_length_ne E _ _ h]
  rfl

/-- Empty data intends no call (R82). -/
theorem afterCtr_of_din_nil (E : Cipher) {s : State} (h : s.mem.din = []) :
    afterCtr E s = { s with mem := { s.mem with dout := [] }, err := .ok } := by
  simp [afterCtr, h, ctrCalls, ceil16, ctrOut, withDout]

/-- CTR has one outcome, whatever the state. -/
theorem exec_ctr (s : State) : exec .ctr s = .next (ctrCommand Config.encryptBlock s) := rfl

/-- Settles O30: with a 16-byte KEY the run of CTR is the planned one of R81, with any other it makes no call. -/
theorem ctrCommandFollowsTheRule : Obligations.CtrCommandFollowsTheRule := by
  refine ⟨by decide, fun s => ⟨fun hkey => ?keyFits, fun hkey => ?keyRefused⟩⟩
  case keyFits =>
    exact ⟨fun E => ctrCommand_eq_afterCtr E hkey, by rw [exec_ctr, ctrCommand_eq_afterCtr _ hkey]⟩
  case keyRefused =>
    rw [exec_ctr, ctrCommand_of_length_ne _ hkey]

/-- Settles O31: CTR is the rule's computation, which intends no call for empty data. -/
theorem ctrOnEmptyDataMakesNoCall : Obligations.CtrOnEmptyDataMakesNoCall := by
  intro s hkey hdin
  rw [exec_ctr, ctrCommand_eq_afterCtr _ hkey, afterCtr_of_din_nil _ hdin]

end Sys2Proof.Machine
end

section
/-!
PROOFS for 44_aead.md: the commands ENC (R88 to R90, R94) and DEC (R91 to R93, R95). The key facts are `encryptRun_planned`
(an Encrypt intends the calls of its four steps in order) and `decryptRun_eq_gated` (a Decrypt intends the calls of the three
TaggedMACs, and what follows hangs on the comparison alone).
-/

namespace Sys2Proof.Machine

open Sys2Proof.Pseudo

/-! ### CtEq (R92) -/

/-- The OR of the differences stays zero exactly when every difference is. -/
theorem tagDiff_eq_zero_iff {a b : List Byte} (acc : Byte) (h : a.length = b.length) :
    tagDiff acc a b = 0#8 ↔ acc = 0#8 ∧ a = b := by
  induction a generalizing acc b with
  | nil =>
    obtain rfl : b = [] := List.length_eq_zero_iff.mp h.symm
    simp [tagDiff]
  | cons x xs ih =>
    cases b with
    | nil => simp at h
    | cons y ys =>
      rw [tagDiff, ih _ (Nat.succ.inj h), BitVec.or_eq_zero_iff, BitVec.xor_eq_zero_iff, List.cons.injEq, and_assoc]

theorem ctEq_iff (a b : List Byte) : ctEq a b = true ↔ a = b := by
  rw [ctEq, Bool.and_eq_true, beq_iff_eq, beq_iff_eq]
  constructor
  · rintro ⟨hlen, hdiff⟩
    exact ((tagDiff_eq_zero_iff 0#8 hlen).mp hdiff).2
  · rintro rfl
    exact ⟨rfl, (tagDiff_eq_zero_iff 0#8 rfl).mpr ⟨rfl, rfl⟩⟩

/-! ### Encrypt and ENC (R88 to R90, R94) -/

theorem taggedMacRun_planned (E : Cipher) {K : List Byte} (t : Byte) (m : List Byte) (h : K.length = 16) :
    taggedMacRun E K t m =
      planned E (macCalls E (keyBlock K) (tagged t m)) (digest E (keyBlock K) (tagged t m)) := by
  rw [taggedMacRun, domainBlock_append, macRun_planned E _ h]

theorem encryptRun_planned (E : Cipher) {K : List Byte} (N H P : List Byte) {tl : Nat} (hkey : K.length = 16)
    (htl : tl ≤ 16) :
    encryptRun E K N H P tl = planned E (encCalls E (keyBlock K) N H P)
      (ciphertext E (keyBlock K) N P,
        firstBytes (fullTag E (keyBlock K) N H (ciphertext E (keyBlock K) N P)) tl) := by
  rw [encryptRun, if_pos hkey, if_pos htl, encCalls, List.append_assoc, List.append_assoc,
    taggedMacRun_planned E 0#8 N hkey, taggedMacRun_planned E 1#8 H hkey]
  apply runBind_planned
  apply runBind_planned
  rw [counterCipherRun_planned E _ P hkey]
  apply runBind_planned
  rw [taggedMacRun_planned E 2#8 _ hkey]
  exact runBind_planned_map E _ _

/-- The check of the tag length comes after the key's and before any call (R90). -/
theorem encryptRun_of_tagLength_gt (E : Cipher) {K : List Byte} (N H P : List Byte) {tl : Nat} (hkey : K.length = 16)
    (htl : 16 < tl) : encryptRun E K N H P tl = runRaise .invalidTagLength := by
  rw [encryptRun, if_pos hkey, if_neg (Nat.not_le_of_gt htl)]

theorem encCommand_eq_afterEnc (E : Cipher) {s : State} (hkey : s.mem.key.length = 16) (htl : s.tlen.toNat ≤ 16) :
    encCommand E s = afterEnc E s := by
  rw [encCommand, encryptRun_planned E _ _ _ hkey htl, finishDoutTag_planned]
  rfl

theorem encCommand_of_tagLength_gt (E : Cipher) {s : State} (hkey : s.mem.key.length = 16) (htl : 16 < s.tlen.toNat) :
    encCommand E s = withDoutTag s [] [] .invalidTagLength [] := by
  rw [encCommand, encryptRun_of_tagLength_gt E _ _ _ hkey htl]
  rfl

theorem encCommand_of_length_ne (E : Cipher) {s : State} (h : s.mem.key.length ≠ 16) :
    encCommand E s = withDoutTag s [] [] .invalidKeyLength [] := by
  rw [encCommand, encryptRun_of_length_ne E _ _ _ _ h]
  rfl

/-- ENC has one outcome, whatever the state. -/
theorem exec_enc (s : State) : exec .enc s = .next (encCommand Config.encryptBlock s) := rfl

/-- Settles O34: with a 16-byte KEY and a legal TLEN the run of ENC is the planned one of R88; both checks come first. -/
theorem encCommandFollowsTheRule : Obligations.EncCommandFollowsTheRule := by
  refine ⟨by decide, fun s => ⟨fun hkey htl => ?bothFit, fun hkey htl => ?tagLengthRefused, fun hkey => ?keyRefused⟩⟩
  case bothFit =>
    exact ⟨fun E => encCommand_eq_afterEnc E hkey htl, by rw [exec_enc, encCommand_eq_afterEnc _ hkey htl]⟩
  case tagLengthRefused =>
    rw [exec_enc, encCommand_of_tagLength_gt _ hkey htl]
  case keyRefused =>
    rw [exec_enc, encCommand_of_length_ne _ hkey]

/-! ### Runs that go on after their intended calls -/

/-- After a planned run only what follows on its value matters. -/
theorem runBind_planned_congr {α β γ : Type} {E : Cipher} {cs : List Call} {v : α} {w : β} {f : α → Run γ}
    {g : β → Run γ} (h : f v = g w) : runBind (planned E cs v) f = runBind (planned E cs w) g := by
  cases hc : anyFails E cs with
  | true => simp [runBind, planned, hc]
  | false => simp [runBind, planned, hc, h]

theorem runBind_assoc {α β γ : Type} (r : Run α) (f : α → Run β) (g : β → Run γ) :
    runBind (runBind r f) g = runBind r fun a => runBind (f a) g := by
  cases hr : r.result with
  | error e => simp [runBind, hr]
  | ok a => cases hf : (f a).result <;> simp [runBind, hr, hf]

/-- Two planned runs in sequence, whatever follows, are one. -/
theorem runBind_planned_append {α β γ : Type} {E : Cipher} {cs ds : List Call} {v : α} {w : β} {f : α → Run γ}
    {g : β → Run γ} (h : f v = runBind (planned E ds w) g) :
    runBind (planned E cs v) f = runBind (planned E (cs ++ ds) w) g := by
  rw [← runBind_planned (cs := cs) (v := v) (f := fun _ => planned E ds w) rfl, runBind_assoc]
  exact runBind_planned_congr h

/-- An error raised without a call empties DOUT (R117). -/
theorem finishDout_runRaise (e : CoreError) (s : State) :
    finishDout (runRaise e) s = withDout s [] (errCodeOf e) [] := rfl

theorem withDout_appendTrace (s : State) (x : List Byte) (e : ErrCode) (cs ds : List Call) :
    withDout (appendTrace s cs) x e ds = withDout s x e (cs ++ ds) := by
  simp [withDout, appendTrace]

/-- The end of a command that goes on after its intended calls: the first that fails ends it, else TRACE holds them all. -/
theorem finishDout_runBind_planned {α : Type} (E : Cipher) (cs : List Call) (v : α) (f : α → Run (List Byte))
    (s : State) :
    finishDout (runBind (planned E cs v) f) s =
      if anyFails E cs then withDout s [] .blockCipherError (untilFailure E cs)
      else finishDout (f v) (appendTrace s cs) := by
  cases hc : anyFails E cs with
  | true =>
    rw [runBind_of_error (e := .blockCipherError) f (by simp [planned, hc])]
    rfl
  | false =>
    rw [runBind_of_ok (a := v) f (by simp [planned, hc])]
    cases hf : (f v).result <;>
      simp [finishDout, planned, hf, untilFailure_of_not_anyFails hc, appendTrace]

/-! ### Decrypt and DEC (R91, R93, R95) -/

/-- Steps 4 and 5 of R91, given the expected full tag: the plaintext is released only where the tag agrees (R93). -/
def gatedPlaintext (E : Cipher) (K N C T : List Byte) (expected : Block) : Run (List Byte) :=
  if T = firstBytes expected T.length then counterCipherRun E K (nonceDigest E (keyBlock K) N) C
  else runRaise .authenticationFailure

theorem decryptRun_eq_gated (E : Cipher) {K : List Byte} (N H C T : List Byte) (h : K.length = 16) :
    decryptRun E K N H C T =
      runBind (planned E (decMacCalls E (keyBlock K) N H C) (fullTag E (keyBlock K) N H C))
        (gatedPlaintext E K N C T) := by
  rw [decryptRun, if_pos h, decMacCalls, List.append_assoc]
  simp only [taggedMacRun_planned E _ _ h, ctEq_iff]
  apply runBind_planned_append
  refine Eq.trans (runBind_planned_append rfl) ?_
  exact runBind_planned_congr rfl

theorem decCommand_eq_afterDec (E : Cipher) {s : State} (h : s.mem.key.length = 16) :
    decCommand E s = afterDec E s := by
  rw [decCommand, decryptRun_eq_gated E _ _ _ _ h, finishDout_runBind_planned, afterDec]
  congr 1
  by_cases htag : s.mem.tag =
      firstBytes (fullTag E (keyBlock s.mem.key) s.mem.nonce s.mem.hdr s.mem.din) s.mem.tag.length
  · rw [gatedPlaintext, if_pos htag, if_neg (not_not_intro htag), counterCipherRun_planned E _ _ h,
      finishDout_planned, withDout_appendTrace, withDout_appendTrace]
    rfl
  · rw [gatedPlaintext, if_neg htag, if_pos htag, finishDout_runRaise, withDout_appendTrace, List.append_nil]
    rfl

theorem decCommand_of_length_ne (E : Cipher) {s : State} (h : s.mem.key.length ≠ 16) :
    decCommand E s = withDout s [] .invalidKeyLength [] := by
  rw [decCommand, decryptRun_of_length_ne E _ _ _ _ h, finishDout_runRaise]
  rfl

/-- DEC has one outcome, whatever the state. -/
theorem exec_dec (s : State) : exec .dec s = .next (decCommand Config.encryptBlock s) := rfl

/-- Settles O35: with a 16-byte KEY the run of DEC is the planned one of R91 behind the gate of R93. -/
theorem decCommandFollowsTheRule : Obligations.DecCommandFollowsTheRule := by
  refine ⟨by decide, fun s => ⟨fun hkey _ => ?keyFits, fun hkey => ?keyRefused⟩⟩
  case keyFits =>
    exact ⟨fun E => decCommand_eq_afterDec E hkey, by rw [exec_dec, decCommand_eq_afterDec _ hkey]⟩
  case keyRefused =>
    rw [exec_dec, decCommand_of_length_ne _ hkey]

end Sys2Proof.Machine
end

section
/-!
PROOFS for 45_host_access.md: the commands that load, clear and read the spaces and registers (R101 to R108). The effects
come from how a space reads after the write of a buffer (`byteAt_setBuf_self`, `spaceBytes_setBuf_of_ne`) or of a byte of
BLK; the Illegal words fail the column "legal when" of R48, in a selector (`LegalWhen`) or in a field that must be zero
(`MustBeZero`).
-/

namespace Sys2Proof.Machine

open Sys2Proof.Pseudo

/-! ### The words (R48): a row's match plus the operands, legal or not -/

theorem encode_clr_toNat (buf : Space) : (encode (.clr buf)).toNat = 0x01000000 + selNumber buf * 2 ^ 20 := by
  rw [encode, fieldsWord_toNat]
  simp [encodeFields, selOfSpace_toNat]

theorem encode_put_toNat (buf : Space) (imm8 : Byte) :
    (encode (.put buf imm8)).toNat = 0x02000000 + selNumber buf * 2 ^ 20 + imm8.toNat := by
  rw [encode, fieldsWord_toNat]
  simp [encodeFields, selOfSpace_toNat]

theorem encode_setb_toNat (ix4 : BitVec 4) (imm8 : Byte) :
    (encode (.setb ix4 imm8)).toNat = 0x03000000 + ix4.toNat * 2 ^ 16 + imm8.toNat := by
  rw [encode, fieldsWord_toNat]
  simp [encodeFields]

theorem encode_settl_toNat (imm8 : Byte) : (encode (.settl imm8)).toNat = 0x04000000 + imm8.toNat := by
  rw [encode, fieldsWord_toNat]
  simp [encodeFields]

/-- The index is the number `hi * 256 + lo` of its two fields (R46). -/
theorem encode_getb_toNat (buf : Space) (idx16 : BitVec 16) :
    (encode (.getb buf idx16)).toNat = 0x08000000 + selNumber buf * 2 ^ 20 + idx16.toNat := by
  have hidx := congrArg BitVec.toNat (idx16_split idx16)
  rw [append_toNat] at hidx
  rw [encode, fieldsWord_toNat, ← hidx]
  simp [encodeFields, selOfSpace_toNat, Nat.add_assoc]

theorem encode_getl_toNat (buf : Space) : (encode (.getl buf)).toNat = 0x09000000 + selNumber buf * 2 ^ 20 := by
  rw [encode, fieldsWord_toNat]
  simp [encodeFields, selOfSpace_toNat]

theorem encode_getr_toNat (reg : CtrlReg) : (encode (.getr reg)).toNat = 0x0A000000 + regNumber reg * 2 ^ 20 := by
  rw [encode, fieldsWord_toNat]
  simp [encodeFields, selOfCtrlReg_toNat]

/-! ### The fields that must be zero (R48, R50) -/

/-- The columns "op" and "legal when" of R48 for the fields NOP, SETB, GETB and GETL do not use, as numbers. -/
structure MustBeZero (op sel ix4 hi lo : Nat) : Prop where
  nop : op = 0x00 → sel = 0 ∧ ix4 = 0 ∧ hi = 0 ∧ lo = 0
  setb : op = 0x03 → sel = 0 ∧ hi = 0
  getb : op = 0x08 → ix4 = 0
  getl : op = 0x09 → ix4 = 0 ∧ hi = 0 ∧ lo = 0

/-- Every command leaves zero the fields it does not use, and its opcode is that of no other row. -/
theorem mustBeZero_encodeFields (i : Instr) :
    MustBeZero (encodeFields i).op.toNat (encodeFields i).sel.toNat (encodeFields i).ix4.toNat
      (encodeFields i).hi.toNat (encodeFields i).lo.toNat := by
  cases i <;> constructor <;> simp [encodeFields]

/-- A word is Illegal unless the fields its opcode does not use are zero. -/
theorem instr?_eq_none_of_mustBeZero {w : Word}
    (h : ¬ MustBeZero (bits w 31 24) (bits w 23 20) (bits w 19 16) (bits w 15 8) (bits w 7 0)) :
    (decode w).instr? = none := by
  rw [instr?_eq_none_iff]
  intro i hi
  obtain ⟨-, hf⟩ := decode_legal_iff.mp hi
  rw [bits_op, bits_sel, bits_ix4, bits_hi, bits_lo, ← hf] at h
  exact h (mustBeZero_encodeFields i)

/-! ### The buffers among the spaces -/

/-- The space a buffer is, the inverse of `clrTarget`. -/
def spaceOfBuf : Buf → Space
  | .key => .key
  | .nonce => .nonce
  | .hdr => .hdr
  | .din => .din
  | .dout => .dout
  | .tag => .tag

theorem clrTarget_spaceOfBuf (b : Buf) : clrTarget (spaceOfBuf b) = some b := by
  cases b <;> rfl

/-- Every space but BLK and RES is a buffer. -/
theorem exists_spaceOfBuf {sp : Space} (hblk : sp ≠ .blk) (hres : sp ≠ .res) : ∃ b, sp = spaceOfBuf b := by
  cases sp with
  | key => exact ⟨.key, rfl⟩
  | nonce => exact ⟨.nonce, rfl⟩
  | hdr => exact ⟨.hdr, rfl⟩
  | din => exact ⟨.din, rfl⟩
  | dout => exact ⟨.dout, rfl⟩
  | tag => exact ⟨.tag, rfl⟩
  | blk => exact absurd rfl hblk
  | res => exact absurd rfl hres

/-- PUT accepts every buffer but DOUT (R103). -/
theorem putTarget_spaceOfBuf {b : Buf} (h : spaceOfBuf b ≠ .dout) : putTarget (spaceOfBuf b) = some b := by
  cases b with
  | dout => exact absurd rfl h
  | key | nonce | hdr | din | tag => rfl

theorem capacity_spaceOfBuf (b : Buf) : capacity (spaceOfBuf b) = cap b := by
  cases b <;> rfl

theorem spaceBytes_spaceOfBuf (m : Memory) (b : Buf) : spaceBytes m (spaceOfBuf b) = bufBytes m b := by
  cases b <;> rfl

theorem spaceLen_spaceOfBuf (m : Memory) (b : Buf) : spaceLen m (spaceOfBuf b) = (bufBytes m b).length := by
  rw [spaceLen_eq, spaceBytes_spaceOfBuf]

theorem byteAt_spaceOfBuf (m : Memory) (b : Buf) (i : Nat) : byteAt m (spaceOfBuf b) i = (bufBytes m b)[i]? := by
  rw [byteAt, spaceBytes_spaceOfBuf]

/-! ### How the spaces read after a write -/

/-- The space of the buffer written has the length of the new content. -/
theorem spaceLen_setBuf_self (m : Memory) (b : Buf) (x : List Byte) :
    spaceLen (setBuf m b x) (spaceOfBuf b) = x.length := by
  rw [spaceLen_spaceOfBuf, bufBytes_setBuf_self]

/-- The space of the buffer written holds the new content. -/
theorem byteAt_setBuf_self (m : Memory) (b : Buf) (x : List Byte) (i : Nat) :
    byteAt (setBuf m b x) (spaceOfBuf b) i = x[i]? := by
  rw [byteAt_spaceOfBuf, bufBytes_setBuf_self]

/-- Every other space holds what it held. -/
theorem spaceBytes_setBuf_of_ne (m : Memory) (x : List Byte) {b : Buf} {sp : Space} (h : sp ≠ spaceOfBuf b) :
    spaceBytes (setBuf m b x) sp = spaceBytes m sp := by
  by_cases hblk : sp = .blk
  · rw [hblk, spaceBytes, spaceBytes, setBuf_blk]
  by_cases hres : sp = .res
  · rw [hres, spaceBytes, spaceBytes, setBuf_res]
  obtain ⟨c, rfl⟩ := exists_spaceOfBuf hblk hres
  have hc : c ≠ b := fun hcb => h (congrArg spaceOfBuf hcb)
  rw [spaceBytes_spaceOfBuf, spaceBytes_spaceOfBuf, bufBytes_setBuf_of_ne m x hc]

/-- Appending a byte changes what stands at the former length alone. -/
theorem getElem?_append_byte_of_ne (x : List Byte) (v : Byte) {i : Nat} (h : i ≠ x.length) :
    (x ++ [v])[i]? = x[i]? := by
  rcases Nat.lt_or_gt_of_ne h with hlt | hgt
  · exact List.getElem?_append_left hlt
  · rw [List.getElem?_eq_none (by simpa using hgt), List.getElem?_eq_none hgt.le]

/-- A byte of BLK exists below index 16. -/
theorem byteAt_blk (m : Memory) (i : Nat) : byteAt m .blk i = if i < 16 then some (blockByte m.blk i) else none :=
  blockToBytes_getElem? m.blk i

/-- SETB's write (R104): the byte named reads as written, the other fifteen as before. -/
theorem byteAt_blk_setByte (m : Memory) (ix4 : BitVec 4) (v : Byte) (i : Nat) :
    byteAt { m with blk := blockSetByte m.blk ix4.toNat v } .blk i =
      if i = ix4.toNat then some v else byteAt m .blk i := by
  have hix : ix4.toNat < 16 := ix4.isLt
  rw [byteAt_blk, byteAt_blk]
  by_cases hi : i < 16
  · rw [if_pos hi, if_pos hi, blockByte_setByte _ _ hix hi, apply_ite some]
  · rw [if_neg hi, if_neg hi, if_neg (by omega)]

/-- GETB reads the byte that is there (R106). -/
theorem readByte_of_byteAt {m : Memory} {sp : Space} {i : Nat} {b : Byte} (h : byteAt m sp i = some b) :
    readByte m sp i = b := by
  rw [readByte, h, Option.getD_some]

/-! ### What the ends of the host-access commands leave unchanged -/

/-- The same memory reads the same at every address. -/
theorem sameBytesOutside_of_mem_eq {l : List Space} {s t : State} (h : t.mem = s.mem) : sameBytesOutside l s t :=
  sameBytesOutside_of_spaceBytes fun sp _ => by rw [h]

/-- CLR and PUT write one buffer and ERR (R102, R103). -/
theorem endWithBuf_frame (s : State) (b : Buf) (x : List Byte) (e : ErrCode) :
    (endWithBuf s b x e).err = e ∧ sameBytesOutside [spaceOfBuf b] s (endWithBuf s b x e) ∧
      (endWithBuf s b x e).tlen = s.tlen ∧ (endWithBuf s b x e).rdata = s.rdata ∧
      sameTraceAndHost s (endWithBuf s b x e) := by
  have hother : sameBytesOutside [spaceOfBuf b] s (endWithBuf s b x e) :=
    sameBytesOutside_of_spaceBytes fun sp hsp => by
      rw [endWithBuf_mem, spaceBytes_setBuf_of_ne s.mem x (by simpa using hsp)]
  exact ⟨endWithBuf_err .., hother, endWithBuf_tlen .., endWithBuf_rdata .., endWithBuf_trace .., endWithBuf_cp ..,
    endWithBuf_host ..⟩

/-- SETB writes BLK and ERR (R104). -/
theorem endWithBlk_frame (s : State) (x : Block) :
    (endWithBlk s x).err = .ok ∧ sameBytesOutside [.blk] s (endWithBlk s x) ∧ (endWithBlk s x).tlen = s.tlen ∧
      (endWithBlk s x).rdata = s.rdata ∧ sameTraceAndHost s (endWithBlk s x) := by
  have hother : sameBytesOutside [.blk] s (endWithBlk s x) :=
    sameBytesOutside_of_spaceBytes fun sp hsp => by
      rw [endWithBlk_mem]
      cases sp with
      | blk => simp at hsp
      | key | nonce | hdr | din | dout | tag | res => rfl
  exact ⟨endWithBlk_err .., hother, endWithBlk_tlen .., endWithBlk_rdata .., endWithBlk_trace .., endWithBlk_cp ..,
    endWithBlk_host ..⟩

/-- GETB, GETL and GETR write RDATA alone (R100). -/
theorem endWithRdata_frame (s : State) (v : Word) :
    (endWithRdata s v).err = s.err ∧ sameBytesOutside [] s (endWithRdata s v) ∧ (endWithRdata s v).tlen = s.tlen ∧
      sameTraceAndHost s (endWithRdata s v) :=
  ⟨endWithRdata_err .., sameBytesOutside_of_mem_eq (endWithRdata_mem s v), endWithRdata_tlen .., endWithRdata_trace ..,
    endWithRdata_cp .., endWithRdata_host ..⟩

/-! ### NOP (R101) -/

theorem exec_nop (s : State) : exec .nop s = .next s := rfl

/-- Settles O14: a word of NOP's opcode that is not the zero word has a nonzero field. -/
theorem nopChangesNothing : Obligations.NopChangesNothing := by
  refine ⟨exec_nop, by decide, fun w hop hw => instr?_eq_none_of_mustBeZero fun hzero => ?_⟩
  obtain ⟨hsel, hix4, hhi, hlo⟩ := hzero.nop hop
  refine hw (BitVec.eq_of_toNat_eq ?_)
  rw [word_toNat, hop, hsel, hix4, hhi, hlo]
  rfl

/-! ### CLR (R102) -/

/-- Settles O15: CLR replaces its buffer by the empty content, and BLK and RES are no buffers. -/
theorem clrEmptiesItsBuffer : Obligations.ClrEmptiesItsBuffer := by
  refine ⟨fun s buf hblk hres => ⟨encode_clr_toNat buf, ?buffer⟩, fun s buf hbuf => ?register,
    fun w hop hsel => ?illegalWord⟩
  case buffer =>
    obtain ⟨b, rfl⟩ := exists_spaceOfBuf hblk hres
    exact ⟨_, exec_clr_of (clrTarget_spaceOfBuf b) s, spaceLen_setBuf_self s.mem b [],
      fun i => byteAt_setBuf_self s.mem b [] i, endWithBuf_frame s b [] .ok⟩
  case register => rcases hbuf with rfl | rfl <;> exact exec_clr_illegal rfl s
  case illegalWord =>
    refine instr?_eq_none_of_legalWhen fun hl => ?_
    have hclr := hl.clr hop
    omega

/-! ### PUT (R103) -/

/-- Settles O16: PUT replaces its buffer by the content with one byte more, unless the buffer is full. -/
theorem putAppendsOneByte : Obligations.PutAppendsOneByte := by
  refine ⟨fun s buf v hdout hblk hres => ⟨encode_put_toNat buf v, ?buffer⟩, fun s buf v hbuf => ?refused,
    fun w hop hsel => ?illegalWord⟩
  case buffer =>
    obtain ⟨b, rfl⟩ := exists_spaceOfBuf hblk hres
    have hput := putTarget_spaceOfBuf hdout
    simp only [spaceLen_spaceOfBuf s.mem, byteAt_spaceOfBuf s.mem, capacity_spaceOfBuf]
    split
    case isTrue hfull => exact exec_put_full v hput hfull
    case isFalse hroom =>
      refine ⟨_, exec_put_room v hput hroom, ?len, ?new, fun i hi => ?old, endWithBuf_frame s b _ .ok⟩
      case len => rw [endWithBuf_mem, spaceLen_setBuf_self, List.length_append, List.length_singleton]
      case new => rw [endWithBuf_mem, byteAt_setBuf_self, List.getElem?_concat_length]
      case old => rw [endWithBuf_mem, byteAt_setBuf_self, getElem?_append_byte_of_ne _ v hi]
  case refused => rcases hbuf with rfl | rfl | rfl <;> exact exec_put_illegal v rfl s
  case illegalWord =>
    refine instr?_eq_none_of_legalWhen fun hl => ?_
    have hput := hl.put hop
    simp only [List.mem_cons, List.not_mem_nil, or_false] at hsel hput
    omega

/-! ### SETB (R104) -/

theorem exec_setb (ix4 : BitVec 4) (v : Byte) (s : State) :
    exec (.setb ix4 v) s = .next (endWithBlk s (blockSetByte s.mem.blk ix4.toNat v)) := rfl

/-- Settles O17: SETB ends with BLK changed in one byte. -/
theorem setbWritesOneByte : Obligations.SetbWritesOneByte := by
  refine ⟨fun s ix4 v => ⟨encode_setb_toNat ix4 v, _, exec_setb ix4 v s, ?new, fun i hi => ?old, endWithBlk_frame s _⟩,
    fun w hop hbad => ?illegalWord⟩
  case new => rw [endWithBlk_mem, byteAt_blk_setByte, if_pos rfl]
  case old => rw [endWithBlk_mem, byteAt_blk_setByte, if_neg hi]
  case illegalWord =>
    refine instr?_eq_none_of_mustBeZero fun hzero => ?_
    have hsetb := hzero.setb hop
    omega

/-! ### SETTL (R105) -/

theorem exec_settl (v : Byte) (s : State) : exec (.settl v) s = .next (setErr { s with tlen := v } .ok) := rfl

/-- What CTR and DEC leave in memory and ERR depends on their run and the memory before. -/
theorem finishDout_congr_mem (r : Run (List Byte)) {s t : State} (h : t.mem = s.mem) :
    (finishDout r t).mem = (finishDout r s).mem ∧ (finishDout r t).err = (finishDout r s).err := by
  unfold finishDout
  cases r.result <;> simp [h]

/-- DEC reads the memory alone (R95). -/
theorem decCommand_congr_mem (E : Cipher) {s t : State} (h : t.mem = s.mem) :
    (decCommand E t).mem = (decCommand E s).mem ∧ (decCommand E t).err = (decCommand E s).err := by
  rw [decCommand, decCommand, h]
  exact finishDout_congr_mem _ h

/-- With a 16-byte key and a TLEN above 16 ENC ends with InvalidTagLength (R90). -/
theorem exec_enc_invalidTagLength {s : State} (hkey : s.mem.key.length = 16) (htl : 16 < s.tlen.toNat) :
    ∃ t, exec .enc s = .next t ∧ t.err = .invalidTagLength :=
  ⟨_, exec_enc s, by rw [encCommand_of_tagLength_gt _ hkey htl, withDoutTag]⟩

/-- Settles O18: SETTL writes TLEN and ERR alone; ENC checks TLEN, DEC reads the memory alone. -/
theorem settlStoresAnyByte : Obligations.SettlStoresAnyByte := by
  intro s v
  have hmem : (setErr { s with tlen := v } .ok).mem = s.mem := setErr_mem ..
  exact ⟨encode_settl_toNat v, _, exec_settl v s, setErr_tlen .., setErr_err .., sameBytesOutside_of_mem_eq hmem,
    setErr_rdata .., ⟨setErr_trace .., setErr_cp .., setErr_host ..⟩,
    fun hv u hu hkey => exec_enc_invalidTagLength hkey (hu ▸ hv), fun E => decCommand_congr_mem E hmem⟩

/-! ### GETB (R106) -/

theorem getbSource_of_ne_key {buf : Space} (h : buf ≠ .key) : getbSource buf = some buf := by
  cases buf with
  | key => exact absurd rfl h
  | nonce | hdr | din | dout | tag | blk | res => rfl

theorem zext32_toNat (b : Byte) : (zext32 b).toNat = b.toNat := by
  rw [zext32, BitVec.toNat_setWidth_of_le (by decide)]

/-- Settles O19: RDATA is the zero-extended byte GETB reads, which exists exactly below the length. -/
theorem getbReadsByteOrZero : Obligations.GetbReadsByteOrZero := by
  refine ⟨fun s buf ix hkey => ⟨encode_getb_toNat buf ix, _, exec_getb_of ix (getbSource_of_ne_key hkey) s,
      fun hlt => ?below, fun hle => ?beyond, endWithRdata_frame s _⟩,
    fun s ix => exec_getb_illegal ix rfl s, fun w hop hbad => ?illegalWord⟩
  case below =>
    obtain ⟨b, hb⟩ := Option.isSome_iff_exists.mp ((byteAt_isSome_iff s.mem buf ix.toNat).mpr hlt)
    exact ⟨b, hb, by rw [endWithRdata_rdata, readByte_of_byteAt hb, zext32_toNat]⟩
  case beyond =>
    rw [endWithRdata_rdata, readByte_of_le hle, zext32_toNat]
    rfl
  case illegalWord =>
    by_cases hix4 : bits w 19 16 = 0
    · refine instr?_eq_none_of_legalWhen fun hl => ?_
      have hgetb := hl.getb hop
      omega
    · exact instr?_eq_none_of_mustBeZero fun hzero => hix4 (hzero.getb hop)

/-! ### GETL (R107) -/

theorem exec_getl (buf : Space) (s : State) :
    exec (.getl buf) s = .next (endWithRdata s (BitVec.ofNat 32 (spaceLen s.mem buf))) := rfl

/-- Settles O20: RDATA is the length, which fits 16 bits where the buffers are within their capacities. -/
theorem getlReadsLength : Obligations.GetlReadsLength := by
  refine ⟨fun s buf => ⟨encode_getl_toNat buf, _, exec_getl buf s, endWithRdata_rdata .., fun hbuf => ?register,
    fun hinv => ?withinCapacity, endWithRdata_frame s _⟩, fun w hop hbad => ?illegalWord⟩
  case register => rcases hbuf with rfl | rfl <;> rfl
  case withinCapacity =>
    have hle := spaceLen_le_of_wf hinv buf
    rw [endWithRdata_rdata, BitVec.toNat_ofNat, Nat.mod_eq_of_lt (by omega)]
    exact ⟨rfl, hle⟩
  case illegalWord =>
    by_cases hsel : 8 ≤ bits w 23 20
    · refine instr?_eq_none_of_legalWhen fun hl => ?_
      have hgetl := hl.getl hop
      omega
    · refine instr?_eq_none_of_mustBeZero fun hzero => ?_
      have hgetl := hzero.getl hop
      rw [bits_low20] at hbad
      omega

/-! ### GETR (R108) -/

theorem exec_getr_status (s : State) : exec (.getr .status) s = .next (endWithRdata s (statusWord s)) := rfl

theorem exec_getr_tlen (s : State) : exec (.getr .tlen) s = .next (endWithRdata s (tlenWord s)) := rfl

/-- STATUS is the number of the result code, with bits 31:4 zero (R16). -/
theorem statusWord_toNat (s : State) : (statusWord s).toNat = codeNumber s.err := by
  rw [statusWord, BitVec.toNat_setWidth_of_le (by decide)]
  cases s.err <;> rfl

theorem tlenWord_toNat (s : State) : (tlenWord s).toNat = s.tlen.toNat := by
  rw [tlenWord, BitVec.toNat_setWidth_of_le (by decide)]

/-- Settles O21: RDATA is the register named, and GETR writes nothing else. -/
theorem getrReadsControlRegister : Obligations.GetrReadsControlRegister := by
  refine ⟨fun s reg => ⟨encode_getr_toNat reg, ?effect⟩, fun w hop hsel => ?illegalWord⟩
  case effect =>
    cases reg with
    | status => exact ⟨_, exec_getr_status s, fun _ => statusWord_toNat s, nofun, endWithRdata_frame s _⟩
    | tlen => exact ⟨_, exec_getr_tlen s, nofun, fun _ => tlenWord_toNat s, endWithRdata_frame s _⟩
  case illegalWord =>
    refine instr?_eq_none_of_legalWhen fun hl => ?_
    have hgetr := hl.getr hop
    omega

end Sys2Proof.Machine
end

section
/-!
PROOFS for 30_encoding.md: decoding and encoding are inverse on the legal commands (R45 to R49), and the rows of the opcode
map are disjoint (R48). The round trips are the two directions of `decode_legal_iff`; a row is known by its opcode.
-/

namespace Sys2Proof.Machine

open Sys2Proof.Pseudo

/-! ### The round trips -/

/-- Settles O3: the fields of a legal command's word are the command's, so the decoder accepts it. -/
theorem decodeOfEncode : Obligations.DecodeOfEncode := by
  intro i hwf
  exact decode_legal_iff.mpr ⟨hwf, (fieldsOf_fieldsWord (encodeFields i)).symm⟩

/-- Settles O4: what the decoder accepts is a legal command with the fields of the word, and no bit lies outside them. -/
theorem encodeOfDecode : Obligations.EncodeOfDecode := by
  intro w i h
  obtain ⟨hwf, -⟩ := decode_legal_iff.mp h
  exact ⟨encode_of_decode h, hwf⟩

/-- Settles O1: each word is evaluated. -/
theorem specWordsDecode : Obligations.SpecWordsDecode := by
  unfold Obligations.SpecWordsDecode
  decide

/-! ### The rows of the opcode map (R48) -/

/-- The rows of the opcode map, one per command. -/
def opcodeMap : List TableRow :=
  [tableRow .nop, tableRow (.clr .key), tableRow (.put .key 0#8), tableRow (.setb 0#4 0#8), tableRow (.settl 0#8),
    tableRow (.getb .nonce 0#16), tableRow (.getl .key), tableRow (.getr .status), tableRow .dbl, tableRow .mac,
    tableRow (.tmac 0#8), tableRow .ctr, tableRow .enc, tableRow .dec]

theorem tableRow_mem_opcodeMap (i : Instr) : tableRow i ∈ opcodeMap := by
  cases i <;> simp [opcodeMap, tableRow]

/-- Every row fixes all eight opcode bits. -/
theorem mask_op_of_mem_opcodeMap : ∀ r ∈ opcodeMap, r.mask.extractLsb' 24 8 = 0xFF#8 := by
  decide

/-- A row is known by its opcode. -/
theorem eq_of_op_of_mem_opcodeMap : ∀ r ∈ opcodeMap, ∀ r' ∈ opcodeMap,
    r.matchBits.extractLsb' 24 8 = r'.matchBits.extractLsb' 24 8 → r = r' := by
  decide

/-- A word in a row of the map has the opcode of the row. -/
theorem op_eq_of_rowMatches {r : TableRow} {w : Word} (hr : r ∈ opcodeMap) (h : rowMatches r w = true) :
    r.matchBits.extractLsb' 24 8 = w.extractLsb' 24 8 := by
  have hw : w &&& r.mask = r.matchBits := beq_iff_eq.mp h
  rw [← hw, BitVec.extractLsb'_and, mask_op_of_mem_opcodeMap r hr]
  exact BitVec.and_allOnes

/-- Settles O5: a legal word is the word of its command; the opcode of a word determines the row it can lie in. -/
theorem opcodeRowsAreDisjoint : Obligations.OpcodeRowsAreDisjoint := by
  refine ⟨fun w i h => ?legalWordInRow, fun w i j hi hj => ?sameRow⟩
  case legalWordInRow =>
    rw [← encode_of_decode h]
    exact rowMatches_encode i
  case sameRow =>
    have hmemi := tableRow_mem_opcodeMap i
    have hmemj := tableRow_mem_opcodeMap j
    exact eq_of_op_of_mem_opcodeMap _ hmemi _ hmemj
      ((op_eq_of_rowMatches hmemi hi).trans (op_eq_of_rowMatches hmemj hj).symm)

end Sys2Proof.Machine
end

section
/-!
PROOFS about single steps: what a step on each host move is (R19, R124, R135), that every command and every step answers a
next state, and that both keep the buffers within their capacities (R10). At the end the words of a LOAD (30_encoding.md
section 5), whose states are `loading`: one buffer and ERR written, everything else of CORE as it was.
-/

namespace Sys2Proof.Machine

open Sys2Proof.Pseudo

/-! ### Steps on each host move -/

/-- Settles O8: where no move is left a step reads nothing and writes nothing. -/
theorem idleStepHoldsState : Obligations.IdleStepHoldsState := by
  intro s h
  simp only [step, h]

/-- A legal word runs its command after the word has been accepted. -/
theorem step_of_legal {s : State} {w : Word} {rest : List HostMove} {i : Instr} (hs : s.host = .command w :: rest)
    (hd : decode w = .legal i) : step s = exec i (acceptCommand s rest) := by
  simp only [step, hs, hd]

/-- Settles O7: accepting a word writes the host's two fields alone. -/
theorem stepRunsDecodedCommand : Obligations.StepRunsDecodedCommand := by
  intro s w rest i hs hd
  rw [step_of_legal hs hd, acceptCommand]

/-! ### Every step answers (R135) -/

/-- A command has a next state: there is no fault to raise, and no arm refuses. -/
theorem exec_answers (i : Instr) (s : State) : ∃ t, exec i s = .next t := by
  cases h : exec i s with
  | next t => exact ⟨t, rfl⟩
  | fault f => cases f
  | refused r => exact absurd h (exec_ne_refused i s r)

/-- Settles O12: each kind of host move has its step, and a command word's is that of a command or of an Illegal word. -/
theorem everyStepAnswers : Obligations.EveryStepAnswers := by
  intro s
  cases hs : s.host with
  | nil => exact ⟨s, idleStepHoldsState s hs⟩
  | cons m rest =>
    cases m with
    | reset => exact ⟨_, step_of_reset hs⟩
    | command w =>
      cases hd : decode w with
      | legal i =>
        obtain ⟨t, ht⟩ := exec_answers i (acceptCommand s rest)
        exact ⟨t, (step_of_legal hs hd).trans ht⟩
      | illegal r => exact ⟨_, step_of_illegal hs hd⟩

/-! ### What the end of an operation command leaves of the registers, TRACE and the host's side -/

@[simp] theorem finishRes_tlen (r : Run Block) (s : State) : (finishRes r s).tlen = s.tlen := by
  unfold finishRes; split <;> rfl
@[simp] theorem finishRes_rdata (r : Run Block) (s : State) : (finishRes r s).rdata = s.rdata := by
  unfold finishRes; split <;> rfl
@[simp] theorem finishRes_cp (r : Run Block) (s : State) : (finishRes r s).cp = s.cp := by
  unfold finishRes; split <;> rfl
@[simp] theorem finishRes_host (r : Run Block) (s : State) : (finishRes r s).host = s.host := by
  unfold finishRes; split <;> rfl
@[simp] theorem finishRes_trace (r : Run Block) (s : State) : (finishRes r s).trace = s.trace ++ r.calls := by
  unfold finishRes; split <;> rfl

@[simp] theorem finishDout_tlen (r : Run (List Byte)) (s : State) : (finishDout r s).tlen = s.tlen := by
  unfold finishDout; split <;> rfl
@[simp] theorem finishDout_rdata (r : Run (List Byte)) (s : State) : (finishDout r s).rdata = s.rdata := by
  unfold finishDout; split <;> rfl
@[simp] theorem finishDout_cp (r : Run (List Byte)) (s : State) : (finishDout r s).cp = s.cp := by
  unfold finishDout; split <;> rfl
@[simp] theorem finishDout_host (r : Run (List Byte)) (s : State) : (finishDout r s).host = s.host := by
  unfold finishDout; split <;> rfl
@[simp] theorem finishDout_trace (r : Run (List Byte)) (s : State) : (finishDout r s).trace = s.trace ++ r.calls := by
  unfold finishDout; split <;> rfl

@[simp] theorem finishDoutTag_tlen (r : Run (List Byte × List Byte)) (s : State) :
    (finishDoutTag r s).tlen = s.tlen := by
  unfold finishDoutTag; split <;> rfl
@[simp] theorem finishDoutTag_rdata (r : Run (List Byte × List Byte)) (s : State) :
    (finishDoutTag r s).rdata = s.rdata := by
  unfold finishDoutTag; split <;> rfl
@[simp] theorem finishDoutTag_cp (r : Run (List Byte × List Byte)) (s : State) : (finishDoutTag r s).cp = s.cp := by
  unfold finishDoutTag; split <;> rfl
@[simp] theorem finishDoutTag_host (r : Run (List Byte × List Byte)) (s : State) :
    (finishDoutTag r s).host = s.host := by
  unfold finishDoutTag; split <;> rfl
@[simp] theorem finishDoutTag_trace (r : Run (List Byte × List Byte)) (s : State) :
    (finishDoutTag r s).trace = s.trace ++ r.calls := by
  unfold finishDoutTag; split <;> rfl

/-! ### The host's side of the state (R19) -/

/-- No command writes the host's index or its moves. -/
theorem exec_keeps_host {i : Instr} {s t : State} (h : exec i s = .next t) : t.cp = s.cp ∧ t.host = s.host := by
  have hdid := exec_inv h
  cases i with
  | nop | setb | settl | getl | dbl =>
    obtain rfl := hdid
    exact ⟨rfl, rfl⟩
  | clr buf => obtain ⟨b, -, rfl⟩ | ⟨-, rfl⟩ := hdid <;> exact ⟨rfl, rfl⟩
  | put buf v => obtain ⟨b, -, -, rfl⟩ | ⟨b, -, -, rfl⟩ | ⟨-, rfl⟩ := hdid <;> exact ⟨rfl, rfl⟩
  | getb buf ix => obtain ⟨sp, -, rfl⟩ | ⟨-, rfl⟩ := hdid <;> exact ⟨rfl, rfl⟩
  | getr reg => cases reg <;> obtain rfl := hdid <;> exact ⟨rfl, rfl⟩
  | mac =>
    obtain rfl := hdid
    exact ⟨finishRes_cp _ s, finishRes_host _ s⟩
  | tmac d =>
    obtain ⟨-, rfl⟩ | ⟨-, rfl⟩ := hdid
    · exact ⟨finishRes_cp _ s, finishRes_host _ s⟩
    · exact ⟨rfl, rfl⟩
  | ctr | dec =>
    obtain rfl := hdid
    exact ⟨finishDout_cp _ s, finishDout_host _ s⟩
  | enc =>
    obtain rfl := hdid
    exact ⟨finishDoutTag_cp _ s, finishDoutTag_host _ s⟩

/-- Settles O13: accepting a word moves both fields, and what the word then does leaves them. -/
theorem hostIndexAdvancesByOne : Obligations.HostIndexAdvancesByOne := by
  refine ⟨fun s t w rest hs hstep => ?word, fun i s t => exec_keeps_host⟩
  case word =>
    cases hd : decode w with
    | legal i => exact exec_keeps_host ((step_of_legal hs hd).symm.trans hstep)
    | illegal r =>
      obtain rfl := next_inj ((step_of_illegal hs hd).symm.trans hstep)
      exact ⟨rfl, rfl⟩

/-! ### The invariant (R10) -/

/-- Settles O10: every buffer is empty at reset. -/
theorem resetMeetsInvariant : Obligations.ResetMeetsInvariant :=
  memory_reset_wf

theorem finishRes_wf (r : Run Block) {s : State} (hs : s.mem.wf) : (finishRes r s).mem.wf := by
  obtain ⟨d, hd⟩ := finishRes_mem r s
  rw [hd]
  exact res_wf d hs

/-- CTR and DEC keep the capacities where their result fits DOUT. -/
theorem finishDout_wf {r : Run (List Byte)} {s : State} (hs : s.mem.wf)
    (hr : ∀ x, r.result = .ok x → x.length ≤ cap .dout) : (finishDout r s).mem.wf := by
  obtain ⟨x, hx, h⟩ | ⟨e, -, h⟩ := finishDout_cases r s
  · rw [h]
    exact dout_wf hs (hr x hx)
  · rw [h]
    exact dout_wf hs (Nat.zero_le _)

/-- ENC keeps the capacities where its results fit DOUT and TAG. -/
theorem finishDoutTag_wf {r : Run (List Byte × List Byte)} {s : State} (hs : s.mem.wf)
    (hr : ∀ c t, r.result = .ok (c, t) → c.length ≤ cap .dout ∧ t.length ≤ cap .tag) :
    (finishDoutTag r s).mem.wf := by
  obtain ⟨c, t, hct, h⟩ | ⟨e, -, h⟩ := finishDoutTag_cases r s
  · obtain ⟨hc, ht⟩ := hr c t hct
    rw [h]
    exact dout_tag_wf hs hc ht
  · rw [h]
    exact dout_tag_wf hs (Nat.zero_le _) (Nat.zero_le _)

/-- Every command keeps the capacities: PUT checks, and the results of CTR, ENC and DEC are as long as DIN. -/
theorem exec_keeps_wf {i : Instr} {s t : State} (hs : s.mem.wf) (h : exec i s = .next t) : t.mem.wf := by
  have hdid := exec_inv h
  have hdin : s.mem.din.length ≤ cap .dout := by
    obtain ⟨-, -, -, hdin, -, -⟩ := hs
    exact hdin
  cases i with
  | nop | settl | getl =>
    obtain rfl := hdid
    exact hs
  | setb =>
    obtain rfl := hdid
    exact blk_wf _ hs
  | dbl =>
    obtain rfl := hdid
    exact res_wf _ hs
  | clr buf =>
    obtain ⟨b, -, rfl⟩ | ⟨-, rfl⟩ := hdid
    · exact setBuf_wf hs (Nat.zero_le _)
    · exact hs
  | put buf v =>
    obtain ⟨b, -, -, rfl⟩ | ⟨b, -, hroom, rfl⟩ | ⟨-, rfl⟩ := hdid
    · exact hs
    · exact append_wf v hs hroom
    · exact hs
  | getb buf ix => obtain ⟨sp, -, rfl⟩ | ⟨-, rfl⟩ := hdid <;> exact hs
  | getr reg => cases reg <;> obtain rfl := hdid <;> exact hs
  | mac =>
    obtain rfl := hdid
    exact finishRes_wf _ hs
  | tmac d =>
    obtain ⟨-, rfl⟩ | ⟨-, rfl⟩ := hdid
    · exact finishRes_wf _ hs
    · exact hs
  | ctr =>
    obtain rfl := hdid
    exact finishDout_wf hs fun x hx => (counterCipherRun_length hx).trans_le hdin
  | enc =>
    obtain rfl := hdid
    refine finishDoutTag_wf hs fun c t hct => ?_
    obtain ⟨hc, ht⟩ := encryptRun_lengths hct
    exact ⟨hc.trans_le hdin, ht⟩
  | dec =>
    obtain rfl := hdid
    exact finishDout_wf hs fun x hx => (decryptRun_length hx).trans_le hdin

/-- Settles O11: the reset state meets the invariant, and every command keeps it. -/
theorem stepKeepsInvariant : Obligations.StepKeepsInvariant := by
  intro s t hs hstep
  obtain ⟨-, rfl⟩ | ⟨rest, -, rfl⟩ | ⟨w, rest, i, -, -, hexec⟩ | ⟨w, rest, r, -, -, rfl⟩ := step_inv hstep
  · exact hs
  · exact memory_reset_wf
  · exact exec_keeps_wf (s := acceptCommand s rest) hs hexec
  · exact hs

/-! ### LOAD (30_encoding.md section 5) -/

/-- A second write of a buffer hides the first. -/
theorem setBuf_setBuf (m : Memory) (b : Buf) (x y : List Byte) : setBuf (setBuf m b x) b y = setBuf m b y := by
  cases b <;> rfl

/-- A space PUT accepts is a buffer, the one PUT appends to. -/
theorem exists_buf_of_puttable {sp : Space} (h : sp.puttable = true) :
    ∃ b, sp = spaceOfBuf b ∧ putTarget sp = some b := by
  cases sp with
  | key => exact ⟨.key, rfl, rfl⟩
  | nonce => exact ⟨.nonce, rfl, rfl⟩
  | hdr => exact ⟨.hdr, rfl, rfl⟩
  | din => exact ⟨.din, rfl, rfl⟩
  | tag => exact ⟨.tag, rfl, rfl⟩
  | dout | blk | res => cases h

/-- The state while the buffer `b` is being loaded: it holds `x`, the host's index is `n` and `rest` is still to come. -/
def loading (s : State) (b : Buf) (x : List Byte) (n : Nat) (rest : List HostMove) : State :=
  { s with mem := setBuf s.mem b x, err := .ok, cp := n, host := rest }

/-- The first word of a LOAD. -/
theorem step_clr {s : State} {b : Buf} {rest : List HostMove}
    (hs : s.host = .command (encode (.clr (spaceOfBuf b))) :: rest) :
    step s = .next (loading s b [] (s.cp + 1) rest) := by
  have hwf : (Instr.clr (spaceOfBuf b)).wellFormed = true := by cases b <;> rfl
  rw [step_of_legal hs (decodeOfEncode _ hwf), exec_clr_of (clrTarget_spaceOfBuf b)]
  rfl

/-- Every further word of a LOAD, while there is room. -/
theorem step_put (s : State) {buf : Space} {b : Buf} {y : List Byte} (v : Byte) (n : Nat) (rest : List HostMove)
    (hbuf : buf.puttable = true) (hb : putTarget buf = some b) (hroom : y.length < cap b) :
    step (loading s b y n (.command (encode (.put buf v)) :: rest)) = .next (loading s b (y ++ [v]) (n + 1) rest) := by
  have hdec : decode (encode (.put buf v)) = .legal (.put buf v) := decodeOfEncode _ hbuf
  have hbytes (rest' : List HostMove) : bufBytes (acceptCommand (loading s b y n rest') rest).mem b = y :=
    bufBytes_setBuf_self s.mem b y
  rw [step_of_legal rfl hdec, exec_put_room v hb (by rw [hbytes]; exact hroom.ne), hbytes]
  simp only [loading, acceptCommand, endWithBuf, setErr, setBuf_setBuf]

/-- The words of a LOAD after the first append their bytes in order. -/
theorem steps_puts (s : State) {buf : Space} {b : Buf} (x y : List Byte) (n : Nat) (rest : List HostMove)
    (hbuf : buf.puttable = true) (hb : putTarget buf = some b) (hroom : y.length + x.length ≤ cap b) :
    steps x.length (loading s b y n ((x.map fun v => .command (encode (.put buf v))) ++ rest)) =
      .next (loading s b (y ++ x) (n + x.length) rest) := by
  induction x generalizing y n with
  | nil => rw [List.append_nil]; rfl
  | cons v x ih =>
    rw [List.length_cons] at hroom
    have hrest := ih (y ++ [v]) (n + 1) (by rw [List.length_append, List.length_singleton]; omega)
    rw [List.append_assoc, List.singleton_append, Nat.add_right_comm] at hrest
    rw [List.length_cons, List.map_cons, List.cons_append, steps, step_put s v n _ hbuf hb (by omega)]
    exact hrest

/-- Settles O53: CLR begins the load with no byte, and the PUTs append X to it. -/
theorem loadLeavesExactlyItsBytes : Obligations.LoadLeavesExactlyItsBytes := by
  intro s buf x rest hbuf hlen hs
  obtain ⟨b, rfl, hb⟩ := exists_buf_of_puttable hbuf
  rw [capacity_spaceOfBuf] at hlen
  have hputs := steps_puts s x [] (s.cp + 1) rest hbuf hb (by rwa [List.length_nil, Nat.zero_add])
  have hload : steps (x.length + 1) s = .next (loading s b x (s.cp + 1 + x.length) rest) := by
    rw [steps, step_clr hs]
    exact hputs
  have hbytes : spaceBytes (setBuf s.mem b x) (spaceOfBuf b) = x := by
    rw [spaceBytes_spaceOfBuf, bufBytes_setBuf_self]
  obtain ⟨-, hother, -⟩ := endWithBuf_frame s b x .ok
  exact ⟨_, hload, hbytes, rfl, hother, rfl, rfl, rfl, rfl, Nat.add_right_comm ..⟩

end Sys2Proof.Machine
end

section
/-!
PROOFS for 40_fielddouble.md: FieldDouble byte by byte (R61), its linearity and its inverse (R63). All rest on
`fieldDouble_eq_xor`: the shifted block XOR the reduction constant, which is taken in where the top bit was 1.
-/

namespace Sys2Proof.Machine

open Sys2Proof.Pseudo

/-- What is XORed into the shifted block (R60). -/
def reduction (x : Block) : Block :=
  if x.msb then 0x87#128 else 0#128

theorem fieldDouble_eq_xor (x : Block) : fieldDouble x = (x <<< 1) ^^^ reduction x := by
  unfold fieldDouble reduction
  split
  · rfl
  · rw [BitVec.xor_zero]

/-! ### Byte by byte (R61) -/

/-- A byte of the shifted block: the byte shifted, with the top bit of the next byte carried in. -/
theorem blockByte_shiftLeft_one (x : Block) {i : Nat} (hi : i < 15) :
    blockByte (x <<< 1) i = (blockByte x i <<< 1) ||| (blockByte x (i + 1) >>> 7) := by
  apply BitVec.eq_of_getLsbD_eq
  intro k hk
  rw [BitVec.getLsbD_or, BitVec.getLsbD_shiftLeft, BitVec.getLsbD_ushiftRight, blockByte_getLsbD, blockByte_getLsbD,
    blockByte_getLsbD, BitVec.getLsbD_shiftLeft]
  cases k with
  | zero =>
    have hcarry : 8 * (15 - i) - 1 = 8 * (15 - (i + 1)) + 7 := by omega
    have hpos : ¬ 8 * (15 - i) < 1 := by omega
    have hlt : 8 * (15 - i) < 128 := by omega
    simp [hcarry, hpos, hlt]
  | succ k =>
    have hpred : 8 * (15 - i) + (k + 1) - 1 = 8 * (15 - i) + k := by omega
    have hlt : 8 * (15 - i) + (k + 1) < 128 := by omega
    have hk' : k < 8 := by omega
    have hbeyond : ¬ 7 + (k + 1) < 8 := by omega
    simp [hpred, hlt, hk, hk', hbeyond]

/-- The last byte of the shifted block has no byte to carry from. -/
theorem blockByte_shiftLeft_one_last (x : Block) : blockByte (x <<< 1) 15 = blockByte x 15 <<< 1 := by
  apply BitVec.eq_of_toNat_eq
  rw [BitVec.toNat_shiftLeft, blockByte_toNat, blockByte_toNat, block_shiftLeft_one_toNat, Nat.shiftLeft_eq]
  omega

/-- The reduction constant lies in the last byte alone. -/
theorem blockByte_reduction (x : Block) {i : Nat} (hi : i < 15) : blockByte (reduction x) i = 0#8 := by
  have hconst : ∀ i < 15, blockByte 0x87#128 i = 0#8 := by decide
  unfold reduction
  split
  · exact hconst i hi
  · exact blockByte_zero i

/-- The top bit of a block is the top bit of its first byte. -/
theorem block_msb_iff_blockByte (x : Block) : x.msb = true ↔ (blockByte x 0).toNat >>> 7 = 1 := by
  have hx : x.toNat < 2 ^ 128 := x.isLt
  rw [block_msb_iff, blockByte_toNat, Nat.shiftRight_eq_div_pow, Nat.shiftRight_eq_div_pow]
  omega

/-- Settles O23: the shift and the reduction constant, each byte by byte. -/
theorem fieldDoubleByBytes : Obligations.FieldDoubleByBytes := by
  intro x
  refine ⟨fun i hi => ?carried, ?last⟩
  case carried =>
    rw [fieldDouble_eq_xor, blockByte_xor, blockByte_shiftLeft_one x hi, blockByte_reduction x hi, BitVec.xor_zero,
      BitVec.toNat_or, BitVec.toNat_shiftLeft, BitVec.toNat_ushiftRight]
  case last =>
    have hconst : blockByte 0x87#128 15 = 0x87#8 := by decide
    rw [fieldDouble_eq_xor, blockByte_xor, blockByte_shiftLeft_one_last, reduction]
    by_cases hmsb : x.msb = true
    · rw [if_pos hmsb, if_pos ((block_msb_iff_blockByte x).mp hmsb), hconst, BitVec.toNat_xor, BitVec.toNat_shiftLeft]
      rfl
    · rw [if_neg hmsb, if_neg (mt (block_msb_iff_blockByte x).mpr hmsb), blockByte_zero, BitVec.xor_zero,
        BitVec.toNat_shiftLeft]

/-! ### Linearity and the inverse (R63) -/

theorem reduction_xor (x y : Block) : reduction (x ^^^ y) = reduction x ^^^ reduction y := by
  unfold reduction
  rw [BitVec.msb_xor]
  cases x.msb <;> cases y.msb <;> rfl

theorem fieldDouble_xor (x y : Block) : fieldDouble (x ^^^ y) = fieldDouble x ^^^ fieldDouble y := by
  rw [fieldDouble_eq_xor, fieldDouble_eq_xor, fieldDouble_eq_xor, BitVec.shiftLeft_xor_distrib, reduction_xor]
  ac_rfl

/-- The lowest bit of the double is the top bit of the block: the shift leaves it zero and 0x87 is odd. -/
theorem fieldDouble_lowBit (x : Block) : (blockByte (fieldDouble x) 15).toNat % 2 = x.toNat >>> 127 := by
  have hx : x.toNat < 2 ^ 128 := x.isLt
  rw [blockByte_toNat, fieldDouble_toNat]
  split
  case isTrue htop =>
    have hodd : (2 * x.toNat % 2 ^ 128 ^^^ 0x87) % 2 = 1 := by
      rw [Nat.xor_mod_two_eq_one]
      omega
    omega
  case isFalse htop =>
    rw [Nat.shiftRight_eq_div_pow] at *
    omega

/-- The formula of R63 for the inverse. -/
theorem toNat_eq_of_fieldDouble (x : Block) :
    x.toNat = x.toNat >>> 127 * 2 ^ 127 +
      (((fieldDouble x).toNat ^^^ (0x87 * (x.toNat >>> 127))) >>> 1) := by
  have hx : x.toNat < 2 ^ 128 := x.isLt
  rw [fieldDouble_toNat]
  split
  case isTrue htop =>
    rw [htop, Nat.mul_one, Nat.xor_xor_cancel_right, Nat.shiftRight_eq_div_pow]
    rw [Nat.shiftRight_eq_div_pow] at htop
    omega
  case isFalse htop =>
    have hzero : x.toNat >>> 127 = 0 := by
      rw [Nat.shiftRight_eq_div_pow] at *
      omega
    rw [hzero, Nat.mul_zero, Nat.xor_zero, Nat.shiftRight_eq_div_pow]
    rw [Nat.shiftRight_eq_div_pow] at hzero
    omega

theorem fieldDouble_injective : Function.Injective fieldDouble := by
  intro x y hxy
  apply BitVec.eq_of_toNat_eq
  rw [toNat_eq_of_fieldDouble x, toNat_eq_of_fieldDouble y, ← fieldDouble_lowBit x, ← fieldDouble_lowBit y, hxy]

/-- Settles O24: the double is determined by its block, so doubling permutes the finitely many blocks. -/
theorem fieldDoubleLinearAndInvertible : Obligations.FieldDoubleLinearAndInvertible := by
  refine ⟨by decide, fieldDouble_xor, Finite.injective_iff_bijective.mp fieldDouble_injective, fun x => ?inverse⟩
  case inverse =>
    refine ⟨fieldDouble_lowBit x, ?_⟩
    rw [fieldDouble_lowBit]
    exact toNat_eq_of_fieldDouble x

end Sys2Proof.Machine
end

section
/-!
PROOFS about the function rules alone: padding (R66), the calls of a TaggedMAC (R78), the self-inverse CounterCipher (R85),
CtEq (R92), and what Decrypt makes of Encrypt's results (R96, R98). A run that ended with a value had a 16-byte key and no
failing call among those it intended; the results and calls then are those of the spec's pseudocode.
-/

namespace Sys2Proof.Machine

open Sys2Proof.Pseudo

/-! ### Padding and the tag comparison -/

/-- Settles O25: the length and the bytes of the padded message. -/
theorem paddedMessageBytes : Obligations.PaddedMessageBytes :=
  fun m => ⟨padMessage_length m, fun _ => padMessage_getElem?⟩

/-- Settles O33: the loop finds every difference. -/
theorem ctEqIsEquality : Obligations.CtEqIsEquality :=
  fun a b _ => ctEq_iff a b

/-! ### A run with a value had a 16-byte key -/

theorem keyLength_of_macRun_ok {E : Cipher} {K m : List Byte} {d : Block} (h : (macRun E K m).result = .ok d) :
    K.length = 16 := by
  by_contra hkey
  rw [macRun_of_length_ne E m hkey] at h
  cases h

theorem keyLength_of_counterCipherRun_ok {E : Cipher} {K x y : List Byte} {IV : Block}
    (h : (counterCipherRun E K IV x).result = .ok y) : K.length = 16 := by
  by_contra hkey
  rw [counterCipherRun_of_length_ne E IV x hkey] at h
  cases h

theorem keyLength_of_encryptRun_ok {E : Cipher} {K N H P : List Byte} {tl : Nat} {r : List Byte × List Byte}
    (h : (encryptRun E K N H P tl).result = .ok r) : K.length = 16 := by
  by_contra hkey
  rw [encryptRun_of_length_ne E N H P tl hkey] at h
  cases h

/-- A run with a value made all the calls it intended. -/
theorem planned_calls_of_ok {α : Type} {E : Cipher} {cs : List Call} (v : α) (h : anyFails E cs = false) :
    (planned E cs v).calls = cs :=
  untilFailure_of_not_anyFails h

/-! ### The calls of a TaggedMAC (R78) -/

theorem macCalls_length (E : Cipher) (K : Block) (m : List Byte) : (macCalls E K m).length = 1 + blockCount m := by
  rw [macCalls_eq, List.length_append, List.length_map, List.length_range, List.length_singleton]

/-- A tagged message has one block more than the message alone, or one where that is empty. -/
theorem blockCount_tagged (t : Byte) (m : List Byte) : blockCount (tagged t m) = 1 + ceil16 m.length := by
  rw [blockCount_eq_max, tagged_length]
  unfold ceil16
  omega

/-- The chain starts from the zero block, so its first call presents `Q_0`. -/
theorem macCalls_second (E : Cipher) (K : Block) {m : List Byte} (h : 0 < blockCount m) :
    (macCalls E K m)[1]? = some (K, maskedBlock (answer E K 0#128) m 0) := by
  rw [macCalls_eq, List.getElem?_append_right (Nat.le_refl 1), List.length_singleton, Nat.sub_self, List.getElem?_map,
    List.getElem?_range h, Option.map_some, chainCall, chainValue, BitVec.zero_xor]

/-- The number of `Prefix(t)` is `t` (R75). -/
theorem blockOfBytes_domainBlock (t : Byte) : blockOfBytes (domainBlock t) = t.setWidth 128 := by
  have hzeros : (List.replicate 15 0#8).foldl pushByte 0#128 = 0#128 := by decide
  rw [domainBlock, blockOfBytes, List.foldl_append, hzeros, List.foldl_cons, List.foldl_nil, pushByte,
    BitVec.zero_shiftLeft, BitVec.zero_or]

/-- Block 0 of a tagged message is `Prefix(t)` (R76). -/
theorem paddedBlock_tagged_zero (t : Byte) (m : List Byte) : paddedBlock (tagged t m) 0 = t.setWidth 128 := by
  have hblocks : 0 < blockCount (tagged t m) := by rw [blockCount_tagged]; omega
  rw [← padMessage_block hblocks, ← blockOfBytes_domainBlock t]
  congr 1
  have hfirst : (tagged t m).take 16 = domainBlock t := by
    rw [← domainBlock_append]
    exact List.take_left' rfl
  have hlen : 16 ≤ (tagged t m).length := by rw [tagged_length]; omega
  rw [Nat.mul_zero, List.drop_zero, ← hfirst]
  by_cases hpad : noPadding (tagged t m) = true
  · rw [padMessage_of_noPadding hpad]
  · rw [padMessage_of_not_noPadding hpad, List.take_append_of_le_length hlen]

/-- `Q_0` of a tagged message: `Prefix(t)`, masked where no message follows it. -/
theorem maskedBlock_tagged_zero (L : Block) (t : Byte) (m : List Byte) :
    maskedBlock L (tagged t m) 0 = if m = [] then t.setWidth 128 ^^^ fieldDouble L else t.setWidth 128 := by
  rw [maskedBlock, blockCount_tagged, paddedBlock_tagged_zero]
  by_cases hm : m = []
  · subst hm
    have hsubkey : subkey L (tagged t []) = fieldDouble L := if_pos (by simp [tagged_length])
    rw [if_pos (show 0 + 1 = 1 + ceil16 [].length from rfl), if_pos rfl, hsubkey]
  · have hpos : 0 < m.length := List.length_pos_of_ne_nil hm
    have hmore : ¬ 0 + 1 = 1 + ceil16 m.length := by unfold ceil16; omega
    rw [if_neg hmore, if_neg hm]

theorem macRun_calls_of_ok {E : Cipher} {K m : List Byte} {d : Block} (hok : (macRun E K m).result = .ok d) :
    (macRun E K m).calls = macCalls E (keyBlock K) m := by
  have hkey := keyLength_of_macRun_ok hok
  rw [macRun_planned E m hkey] at hok ⊢
  obtain ⟨hnone, -⟩ := planned_ok_iff.mp hok
  exact planned_calls_of_ok _ hnone

theorem macCalls_tagged_length (E : Cipher) (K : Block) (t : Byte) (m : List Byte) :
    (macCalls E K (tagged t m)).length = 2 + ceil16 m.length := by
  rw [macCalls_length, blockCount_tagged, ← Nat.add_assoc]

/-- Settles O28: an error-free TaggedMAC makes the calls of MAC on the tagged message. -/
theorem taggedMacCallSequence : Obligations.TaggedMacCallSequence := by
  intro E K m t d hok
  have hblocks : 0 < blockCount (tagged t m) := by rw [blockCount_tagged]; omega
  rw [taggedMacRun, domainBlock_append] at hok ⊢
  rw [macRun_calls_of_ok hok]
  refine ⟨macCalls_tagged_length .., rfl, ?second⟩
  case second => rw [macCalls_second E _ hblocks, maskedBlock_tagged_zero]

/-! ### CounterCipher (R85) -/

/-- The calls depend on the data's length alone. -/
theorem ctrCalls_congr_length (K S : Block) {x y : List Byte} (h : y.length = x.length) :
    ctrCalls K S y = ctrCalls K S x := by
  rw [ctrCalls, ctrCalls, h]

/-- XOR with the keystream twice. -/
theorem ctrOut_ctrOut (E : Cipher) (K S : Block) (x : List Byte) : ctrOut E K S (ctrOut E K S x) = x := by
  apply List.ext_getElem?
  intro i
  rw [ctrOut_getElem?, ctrOut_getElem?, Option.map_map]
  cases x[i]? with
  | none => rfl
  | some b =>
    rw [Option.map_some, Function.comp_apply, BitVec.xor_assoc, BitVec.xor_self, BitVec.xor_zero]

/-- Settles O32: the second run makes the calls of the first, none of which fails, and XORs the same keystream. -/
theorem counterCipherSelfInverse : Obligations.CounterCipherSelfInverse := by
  intro E K IV x y hok
  have hkey := keyLength_of_counterCipherRun_ok hok
  rw [counterCipherRun_planned E IV x hkey] at hok
  obtain ⟨hnone, rfl⟩ := planned_ok_iff.mp hok
  have hlen := ctrOut_length E (keyBlock K) IV x
  refine ⟨hlen, ?_⟩
  rw [counterCipherRun_planned E IV _ hkey, ctrCalls_congr_length _ _ hlen, ctrOut_ctrOut]
  exact planned_ok_iff.mpr ⟨hnone, rfl⟩

/-! ### Encrypt and Decrypt (R88, R91) -/

/-- What an Encrypt without an error has checked, called and computed. -/
theorem encryptRun_ok_inv {E : Cipher} {K N H P C T : List Byte} {tl : Nat}
    (hok : (encryptRun E K N H P tl).result = .ok (C, T)) :
    K.length = 16 ∧ tl ≤ 16 ∧ anyFails E (encCalls E (keyBlock K) N H P) = false ∧
      ciphertext E (keyBlock K) N P = C ∧ firstBytes (fullTag E (keyBlock K) N H C) tl = T := by
  have hkey := keyLength_of_encryptRun_ok hok
  by_cases htl : tl ≤ 16
  · rw [encryptRun_planned E N H P hkey htl] at hok
    obtain ⟨hnone, hval⟩ := planned_ok_iff.mp hok
    obtain ⟨rfl, htag⟩ := Prod.mk.inj hval
    exact ⟨hkey, htl, hnone, rfl, htag⟩
  · rw [encryptRun_of_tagLength_gt E N H P hkey (Nat.lt_of_not_le htl)] at hok
    cases hok

theorem firstBytes_length (x : Block) {n : Nat} (h : n ≤ 16) : (firstBytes x n).length = n := by
  rw [firstBytes, List.length_take, blockToBytes_length, Nat.min_eq_left h]

theorem ciphertext_length (E : Cipher) (K : Block) (N P : List Byte) : (ciphertext E K N P).length = P.length :=
  ctrOut_length ..

/-- A Decrypt whose tag agrees intends the calls of its three TaggedMACs and of the CounterCipher. -/
theorem decryptRun_of_tag_eq (E : Cipher) {K : List Byte} (N H C : List Byte) {T : List Byte} (hkey : K.length = 16)
    (htag : T = firstBytes (fullTag E (keyBlock K) N H C) T.length) :
    decryptRun E K N H C T =
      planned E (decMacCalls E (keyBlock K) N H C ++ ctrCalls (keyBlock K) (nonceDigest E (keyBlock K) N) C)
        (ciphertext E (keyBlock K) N C) := by
  rw [decryptRun_eq_gated E N H C T hkey]
  apply runBind_planned
  rw [gatedPlaintext, if_pos htag]
  exact counterCipherRun_planned E _ C hkey

/-- The run that intends the calls `cs` and then raises `e`. -/
def refused {α : Type} (E : Cipher) (cs : List Call) (e : CoreError) : Run α where
  calls := untilFailure E cs
  result := .error (if anyFails E cs then .blockCipherError else e)

theorem runRaise_refused {α : Type} (E : Cipher) (e : CoreError) : (runRaise e : Run α) = refused E [] e := rfl

/-- An error raised after a planned run. -/
theorem runBind_planned_raise {α β : Type} {E : Cipher} {cs : List Call} {v : α} {e : CoreError} {f : α → Run β}
    (h : f v = runRaise e) : runBind (planned E cs v) f = refused E cs e := by
  cases hc : anyFails E cs <;> simp [runBind, planned, refused, hc, h]

/-- A Decrypt whose tag does not agree ends after the calls of its three TaggedMACs. -/
theorem decryptRun_of_tag_ne (E : Cipher) {K : List Byte} (N H C : List Byte) {T : List Byte} (hkey : K.length = 16)
    (htag : T ≠ firstBytes (fullTag E (keyBlock K) N H C) T.length) :
    decryptRun E K N H C T = refused E (decMacCalls E (keyBlock K) N H C) .authenticationFailure := by
  rw [decryptRun_eq_gated E N H C T hkey]
  apply runBind_planned_raise
  rw [gatedPlaintext, if_neg htag]

/-- Encrypt presents what a Decrypt of its ciphertext presents. -/
theorem mem_encCalls_of_mem_decCalls {E : Cipher} {K : Block} {N H P : List Byte} {c : Call}
    (h : c ∈ decMacCalls E K N H (ciphertext E K N P) ++ ctrCalls K (nonceDigest E K N) (ciphertext E K N P)) :
    c ∈ encCalls E K N H P := by
  rw [ctrCalls_congr_length _ _ (ciphertext_length E K N P)] at h
  simp only [decMacCalls, encCalls, List.mem_append] at h ⊢
  tauto

theorem anyFails_eq_false_iff {E : Cipher} {cs : List Call} : anyFails E cs = false ↔ ∀ c ∈ cs, fails E c = false := by
  simp [anyFails]

/-- Where Encrypt met no failing call, a Decrypt of its ciphertext meets none. -/
theorem decCalls_not_anyFails {E : Cipher} {K : Block} {N H P : List Byte}
    (h : anyFails E (encCalls E K N H P) = false) :
    anyFails E (decMacCalls E K N H (ciphertext E K N P) ++ ctrCalls K (nonceDigest E K N) (ciphertext E K N P)) =
      false :=
  anyFails_eq_false_iff.mpr fun c hc => anyFails_eq_false_iff.mp h c (mem_encCalls_of_mem_decCalls hc)

/-- The first `0` bytes of a tag always agree. -/
theorem decryptRun_emptyTag (E : Cipher) (K N H C : List Byte) :
    (decryptRun E K N H C []).result ≠ .error .authenticationFailure := by
  by_cases hkey : K.length = 16
  · rw [decryptRun_of_tag_eq E N H C hkey rfl, planned]
    split <;> simp
  · rw [decryptRun_of_length_ne E N H C [] hkey]
    simp

/-- Settles O36: Decrypt computes the tag Encrypt computed, makes calls Encrypt made and XORs the same keystream. -/
theorem encryptThenDecryptRoundTrip : Obligations.EncryptThenDecryptRoundTrip := by
  refine ⟨fun E K N H P C T tl hok => ?roundTrip, decryptRun_emptyTag⟩
  case roundTrip =>
    obtain ⟨hkey, htl, hnone, rfl, rfl⟩ := encryptRun_ok_inv hok
    have hlen := firstBytes_length (fullTag E (keyBlock K) N H (ciphertext E (keyBlock K) N P)) htl
    rw [decryptRun_of_tag_eq E N H _ hkey (by rw [hlen]), encryptRun_planned E N H P hkey htl,
      planned_calls_of_ok _ hnone]
    refine ⟨ciphertext_length .., hlen, planned_ok_iff.mpr ⟨decCalls_not_anyFails hnone, ?plaintext⟩, fun c hc => ?pair⟩
    case plaintext => exact ctrOut_ctrOut ..
    case pair => exact mem_encCalls_of_mem_decCalls (mem_of_mem_untilFailure hc)

/-- Settles O39: of one length, only Encrypt's own tag agrees with the expected full tag. -/
theorem changedTagIsRejected : Obligations.ChangedTagIsRejected := by
  intro E K N H P C T T' tl hok hlen hne
  obtain ⟨hkey, htl, hnone, rfl, rfl⟩ := encryptRun_ok_inv hok
  have hdec := decCalls_not_anyFails hnone
  rw [anyFails_append, Bool.or_eq_false_iff] at hdec
  obtain ⟨hmacs, -⟩ := hdec
  rw [decryptRun_of_tag_ne E N H _ hkey (by rwa [hlen, firstBytes_length _ htl]), refused, hmacs]
  rfl

end Sys2Proof.Machine
end

section
/-!
PROOFS about the keyed commands for every cipher: what DEC releases (R93, R97, R116), that the results are a function of the
named inputs (R21, R22), and the number of calls (R138). What a command leaves is read off its run: TRACE grows by the run's
calls, and ERR is OK exactly where the run ended with a value.
-/

namespace Sys2Proof.Machine

open Sys2Proof.Pseudo

/-! ### ERR and the run's result -/

theorem errCodeOf_injective : Function.Injective errCodeOf := by
  intro e e' h
  cases e <;> cases e' <;> cases h <;> rfl

/-- How a keyed command ended: with OK, or with the code of its run's error. -/
def EndsAs {α : Type} (r : Run α) (t : State) : Prop :=
  (t.err = .ok ∧ ∃ a, r.result = .ok a) ∨ ∃ e, r.result = .error e ∧ t.err = errCodeOf e

theorem finishRes_endsAs (r : Run Block) (s : State) : EndsAs r (finishRes r s) := by
  obtain ⟨d, hd, hs⟩ | ⟨e, he, hs⟩ := finishRes_cases r s
  · exact .inl ⟨by rw [hs, withRes], d, hd⟩
  · exact .inr ⟨e, he, by rw [hs, withRes]⟩

theorem finishDout_endsAs (r : Run (List Byte)) (s : State) : EndsAs r (finishDout r s) := by
  obtain ⟨x, hx, hs⟩ | ⟨e, he, hs⟩ := finishDout_cases r s
  · exact .inl ⟨by rw [hs, withDout], x, hx⟩
  · exact .inr ⟨e, he, by rw [hs, withDout]⟩

theorem finishDoutTag_endsAs (r : Run (List Byte × List Byte)) (s : State) : EndsAs r (finishDoutTag r s) := by
  obtain ⟨c, t, hct, hs⟩ | ⟨e, he, hs⟩ := finishDoutTag_cases r s
  · exact .inl ⟨by rw [hs, withDoutTag], _, hct⟩
  · exact .inr ⟨e, he, by rw [hs, withDoutTag]⟩

theorem EndsAs.ok_inv {α : Type} {r : Run α} {t : State} (h : EndsAs r t) (hok : t.err = .ok) :
    ∃ a, r.result = .ok a := by
  obtain ⟨-, ha⟩ | ⟨e, -, herr⟩ := h
  · exact ha
  · exact absurd (herr.symm.trans hok) (errCodeOf_ne_ok e)

theorem EndsAs.error_inv {α : Type} {r : Run α} {t : State} {e : CoreError} (h : EndsAs r t)
    (herr : t.err = errCodeOf e) : r.result = .error e := by
  obtain ⟨hok, -⟩ | ⟨e', he', herr'⟩ := h
  · exact absurd (herr.symm.trans hok) (errCodeOf_ne_ok e)
  · rw [he', errCodeOf_injective (herr'.symm.trans herr)]

theorem finishDout_of_error {r : Run (List Byte)} {e : CoreError} (h : r.result = .error e) (s : State) :
    finishDout r s = withDout s [] (errCodeOf e) r.calls := by
  simp only [finishDout, h]
  rfl

/-! ### Decrypt's outcomes (R91) -/

theorem planned_error_iff {α : Type} {E : Cipher} {cs : List Call} {v : α} {e : CoreError} :
    (planned E cs v).result = .error e ↔ anyFails E cs = true ∧ e = .blockCipherError := by
  unfold planned
  cases anyFails E cs <;> simp [eq_comm]

theorem refused_error_iff {α : Type} {E : Cipher} {cs : List Call} {e e' : CoreError} :
    (refused (α := α) E cs e).result = .error e' ↔ (if anyFails E cs then .blockCipherError else e) = e' := by
  rw [refused, Except.error.injEq]

/-- A Decrypt that gave a plaintext had verified the tag, and made the calls of all its four parts. -/
theorem decryptRun_ok_inv {E : Cipher} {K N H C T P : List Byte} (hok : (decryptRun E K N H C T).result = .ok P) :
    T = firstBytes (fullTag E (keyBlock K) N H C) T.length ∧
      (decryptRun E K N H C T).calls =
        decMacCalls E (keyBlock K) N H C ++ ctrCalls (keyBlock K) (nonceDigest E (keyBlock K) N) C := by
  by_cases hkey : K.length = 16
  case neg =>
    rw [decryptRun_of_length_ne E N H C T hkey] at hok
    cases hok
  by_cases htag : T = firstBytes (fullTag E (keyBlock K) N H C) T.length
  case neg =>
    rw [decryptRun_of_tag_ne E N H C hkey htag] at hok
    cases hok
  rw [decryptRun_of_tag_eq E N H C hkey htag] at hok ⊢
  obtain ⟨hnone, -⟩ := planned_ok_iff.mp hok
  exact ⟨htag, planned_calls_of_ok _ hnone⟩

/-- A Decrypt that raised AuthenticationFailure made the calls of its three TaggedMACs alone (R93). -/
theorem decryptRun_calls_of_authenticationFailure {E : Cipher} {K N H C T : List Byte}
    (herr : (decryptRun E K N H C T).result = .error .authenticationFailure) :
    (decryptRun E K N H C T).calls = decMacCalls E (keyBlock K) N H C := by
  by_cases hkey : K.length = 16
  case neg =>
    rw [decryptRun_of_length_ne E N H C T hkey] at herr
    cases herr
  by_cases htag : T = firstBytes (fullTag E (keyBlock K) N H C) T.length
  case pos =>
    rw [decryptRun_of_tag_eq E N H C hkey htag] at herr
    obtain ⟨-, hcode⟩ := planned_error_iff.mp herr
    cases hcode
  rw [decryptRun_of_tag_ne E N H C hkey htag] at herr ⊢
  cases hnone : anyFails E (decMacCalls E (keyBlock K) N H C) with
  | true =>
    rw [refused_error_iff, hnone] at herr
    cases herr
  | false => exact untilFailure_of_not_anyFails hnone

/-! ### DEC on the state (R93, R95) -/

/-- Settles O37: DOUT is emptied on every error, and a Decrypt without an error had verified the tag. -/
theorem noPlaintextWithoutVerifiedTag : Obligations.NoPlaintextWithoutVerifiedTag := by
  intro E s
  constructor
  · intro hdout
    obtain ⟨x, -, hs⟩ | ⟨e, -, hs⟩ := finishDout_cases
      (decryptRun E s.mem.key s.mem.nonce s.mem.hdr s.mem.din s.mem.tag) s
    · rw [decCommand, hs, withDout]
    · rw [decCommand, hs, withDout] at hdout
      exact absurd rfl hdout
  · intro herr
    obtain ⟨P, hP⟩ := (finishDout_endsAs _ s).ok_inv herr
    obtain ⟨htag, -⟩ := decryptRun_ok_inv hP
    exact htag

/-- Settles O38: an error empties DOUT, and this one is raised after the three TaggedMACs. -/
theorem tagMismatchReleasesNothing : Obligations.TagMismatchReleasesNothing := by
  intro E s herr
  have hrun := (finishDout_endsAs _ s).error_inv (e := .authenticationFailure) herr
  rw [decCommand, finishDout_of_error hrun, decryptRun_calls_of_authenticationFailure hrun]
  rfl

/-- Settles O40: after the failure the state is one in which the tag enters as TAG alone. -/
theorem failingDecDoesNotDependOnTag : Obligations.FailingDecDoesNotDependOnTag := by
  intro E s T T' d d' herr herr'
  have hd := tagMismatchReleasesNothing E _ herr
  have hd' := tagMismatchReleasesNothing E _ herr'
  rw [show d = _ from hd, show d' = _ from hd']
  exact ⟨rfl, rfl⟩

/-- Settles O41: the calls of the three TaggedMACs come before the comparison. -/
theorem cipherErrorBeforeAuthentication : Obligations.CipherErrorBeforeAuthentication := by
  intro E s T hkey hfail
  rw [decCommand_eq_afterDec E (s := { s with mem := { s.mem with tag := T } }) hkey, afterDec, if_pos hfail]
  rfl

/-! ### The results are a function of the inputs (R21, R22) -/

theorem finishRes_congr (r : Run Block) (s s' : State) :
    (finishRes r s).mem.res = (finishRes r s').mem.res ∧ (finishRes r s).err = (finishRes r s').err := by
  unfold finishRes
  cases r.result <;> exact ⟨rfl, rfl⟩

theorem finishDout_congr (r : Run (List Byte)) (s s' : State) :
    (finishDout r s).mem.dout = (finishDout r s').mem.dout ∧ (finishDout r s).err = (finishDout r s').err := by
  unfold finishDout
  cases r.result <;> exact ⟨rfl, rfl⟩

theorem finishDoutTag_congr (r : Run (List Byte × List Byte)) (s s' : State) :
    (finishDoutTag r s).mem.dout = (finishDoutTag r s').mem.dout ∧
      (finishDoutTag r s).mem.tag = (finishDoutTag r s').mem.tag ∧
      (finishDoutTag r s).err = (finishDoutTag r s').err := by
  unfold finishDoutTag
  cases r.result <;> exact ⟨rfl, rfl, rfl⟩

/-- Settles O50: equal inputs give the same run, and outputs and ERR are a function of the run. -/
theorem resultsDependOnInputsOnly : Obligations.ResultsDependOnInputsOnly := by
  intro E s s'
  refine ⟨fun hkey hdin => ?mac, fun hkey hblk hdin => ?ctr, fun hkey hnonce hhdr hdin htlen => ?enc,
    fun hkey hnonce hhdr hdin htag => ?dec⟩
  case mac =>
    have htmac (t : Byte) := finishRes_congr (taggedMacRun E s.mem.key t s.mem.din) s s'
    obtain ⟨hres, herr⟩ := finishRes_congr (macRun E s.mem.key s.mem.din) s s'
    unfold macCommand tmacCommand
    rw [← hkey, ← hdin]
    exact ⟨hres, herr, htmac⟩
  case ctr =>
    rw [ctrCommand, ctrCommand, ← hkey, ← hblk, ← hdin]
    exact finishDout_congr ..
  case enc =>
    rw [encCommand, encCommand, ← hkey, ← hnonce, ← hhdr, ← hdin, ← htlen]
    exact finishDoutTag_congr ..
  case dec =>
    rw [decCommand, decCommand, ← hkey, ← hnonce, ← hhdr, ← hdin, ← htag]
    exact finishDout_congr ..

/-! ### The number of calls (R138) -/

theorem counterCipherRun_calls_of_ok {E : Cipher} {K x y : List Byte} {IV : Block}
    (hok : (counterCipherRun E K IV x).result = .ok y) :
    (counterCipherRun E K IV x).calls = ctrCalls (keyBlock K) IV x := by
  have hkey := keyLength_of_counterCipherRun_ok hok
  rw [counterCipherRun_planned E IV x hkey] at hok ⊢
  obtain ⟨hnone, -⟩ := planned_ok_iff.mp hok
  exact planned_calls_of_ok _ hnone

theorem encryptRun_calls_of_ok {E : Cipher} {K N H P : List Byte} {tl : Nat} {r : List Byte × List Byte}
    (hok : (encryptRun E K N H P tl).result = .ok r) :
    (encryptRun E K N H P tl).calls = encCalls E (keyBlock K) N H P := by
  obtain ⟨hkey, htl, hnone, -⟩ := encryptRun_ok_inv (C := r.1) (T := r.2) hok
  rw [encryptRun_planned E N H P hkey htl]
  exact planned_calls_of_ok _ hnone

theorem ctrCalls_length (K S : Block) (x : List Byte) : (ctrCalls K S x).length = ceil16 x.length := by
  rw [ctrCalls, List.length_map, List.length_range]

theorem decMacCalls_length (E : Cipher) (K : Block) (N H C : List Byte) :
    (decMacCalls E K N H C).length = 6 + ceil16 N.length + ceil16 H.length + ceil16 C.length := by
  simp only [decMacCalls, List.length_append, macCalls_tagged_length]
  omega

theorem encCalls_length (E : Cipher) (K : Block) (N H P : List Byte) :
    (encCalls E K N H P).length = 6 + ceil16 N.length + ceil16 H.length + 2 * ceil16 P.length := by
  simp only [encCalls, List.length_append, macCalls_tagged_length, ctrCalls_length, ciphertext_length]
  omega

/-- With a TLEN above 16 ENC makes no call, whatever KEY is (R90). -/
theorem encCommand_trace_of_tagLength_gt (E : Cipher) {s : State} (htl : 16 < s.tlen.toNat) :
    (encCommand E s).trace = s.trace := by
  by_cases hkey : s.mem.key.length = 16
  · rw [encCommand_of_tagLength_gt E hkey htl]
    exact List.append_nil _
  · rw [encCommand_of_length_ne E hkey]
    exact List.append_nil _

/-- The legal TMACs are keyed commands. -/
theorem tmac_mem_keyed {d : Byte} (h : d ≤ 2#8) :
    Instr.tmac d ∈ [Instr.mac, .tmac 0#8, .tmac 1#8, .tmac 2#8, .ctr, .enc, .dec] := by
  have hd : d = 0#8 ∨ d = 1#8 ∨ d = 2#8 := by bv_omega
  rcases hd with rfl | rfl | rfl <;> simp

/-- A command that is not keyed makes no call. -/
theorem exec_trace_of_not_keyed {i : Instr} {s t : State}
    (hi : i ∉ [Instr.mac, .tmac 0#8, .tmac 1#8, .tmac 2#8, .ctr, .enc, .dec]) (h : exec i s = .next t) :
    t.trace = s.trace := by
  have hdid := exec_inv h
  cases i with
  | nop | setb | settl | getl | dbl =>
    obtain rfl := hdid
    rfl
  | clr buf => obtain ⟨b, -, rfl⟩ | ⟨-, rfl⟩ := hdid <;> rfl
  | put buf v => obtain ⟨b, -, -, rfl⟩ | ⟨b, -, -, rfl⟩ | ⟨-, rfl⟩ := hdid <;> rfl
  | getb buf ix => obtain ⟨sp, -, rfl⟩ | ⟨-, rfl⟩ := hdid <;> rfl
  | getr reg => cases reg <;> obtain rfl := hdid <;> rfl
  | tmac d =>
    obtain ⟨hd, -⟩ | ⟨-, rfl⟩ := hdid
    · exact absurd (tmac_mem_keyed hd) hi
    · rfl
  | mac | ctr | enc | dec => simp at hi

/-- Settles O48: the lengths of the lists of intended calls, and that nothing is called after a refusal. -/
theorem cipherCallCounts : Obligations.CipherCallCounts := by
  intro E s added b
  refine ⟨fun herr => ?mac, fun t herr => ?tmac, fun herr => ?ctr, fun herr => ?enc, fun herr => ?dec,
    fun herr => ?decRefused, fun hkey => ?keyRefused, encCommand_trace_of_tagLength_gt E,
    fun i u => exec_trace_of_not_keyed⟩
  case mac =>
    obtain ⟨d, hok⟩ := (finishRes_endsAs _ s).ok_inv herr
    simp only [added, macCommand, finishRes_trace, List.length_append, Nat.add_sub_cancel_left]
    rw [macRun_calls_of_ok hok, macCalls_length, blockCount_eq_max]
    rfl
  case tmac =>
    obtain ⟨d, hok⟩ := (finishRes_endsAs _ s).ok_inv herr
    obtain ⟨hcount, -⟩ := taggedMacCallSequence E _ _ t d hok
    simp only [added, tmacCommand, finishRes_trace, List.length_append, Nat.add_sub_cancel_left]
    exact hcount
  case ctr =>
    obtain ⟨x, hok⟩ := (finishDout_endsAs _ s).ok_inv herr
    simp only [added, ctrCommand, finishDout_trace, List.length_append, Nat.add_sub_cancel_left]
    rw [counterCipherRun_calls_of_ok hok]
    exact ctrCalls_length ..
  case enc =>
    obtain ⟨r, hok⟩ := (finishDoutTag_endsAs _ s).ok_inv herr
    simp only [added, encCommand, finishDoutTag_trace, List.length_append, Nat.add_sub_cancel_left]
    rw [encryptRun_calls_of_ok hok]
    exact encCalls_length ..
  case dec =>
    obtain ⟨P, hok⟩ := (finishDout_endsAs _ s).ok_inv herr
    obtain ⟨-, hcalls⟩ := decryptRun_ok_inv hok
    simp only [added, decCommand, finishDout_trace, List.length_append, Nat.add_sub_cancel_left]
    rw [hcalls, List.length_append, decMacCalls_length, ctrCalls_length]
    simp only [b, spaceLen]
    omega
  case decRefused =>
    have hrun := (finishDout_endsAs _ s).error_inv (e := .authenticationFailure) herr
    simp only [added, decCommand, finishDout_trace, List.length_append, Nat.add_sub_cancel_left]
    rw [decryptRun_calls_of_authenticationFailure hrun]
    exact decMacCalls_length ..
  case keyRefused =>
    rw [macCommand, finishRes_macRun_of_length_ne E _ hkey, ctrCommand_of_length_ne E hkey,
      encCommand_of_length_ne E hkey, decCommand_of_length_ne E hkey]
    refine ⟨List.append_nil _, fun t => ?_, List.append_nil _, List.append_nil _, List.append_nil _⟩
    rw [tmacCommand_eq_finishRes, finishRes_macRun_of_length_ne E _ hkey]
    exact List.append_nil _

end Sys2Proof.Machine
end

section
/-!
PROOFS about the runs of the function rules (00_scope.md R8, R41, R117): which key their calls present, which call can have
failed, and which errors they raise. Each rule is `Disciplined`, since it intends a list of calls and then has a value
(`planned`) or raises an error (`refused`); what a keyed command ends with is read off its run.
-/

namespace Sys2Proof.Machine

open Sys2Proof.Pseudo

/-! ### What the run of a function rule keeps to (R8, R41, R117) -/

/-- Every call presents the key `K`, only the last can have failed, and it failed exactly where the run ended with
BlockCipherError; the run raises no error outside `es`. -/
structure Disciplined {α : Type} (E : Cipher) (K : List Byte) (es : List CoreError) (r : Run α) : Prop where
  key : ∀ c ∈ r.calls, blockToBytes c.1 = K
  answered : ∀ c ∈ r.calls.dropLast, fails E c = false
  failed : anyFails E r.calls = true ↔ r.result = .error .blockCipherError
  errors : ∀ e, r.result = .error e → e ∈ es

theorem planned_disciplined {α : Type} {E : Cipher} {K : List Byte} {es : List CoreError} {cs : List Call} (v : α)
    (hcs : ∀ c ∈ cs, blockToBytes c.1 = K) (hes : .blockCipherError ∈ es) : Disciplined E K es (planned E cs v) where
  key c hc := hcs c (mem_of_mem_untilFailure hc)
  answered c hc := fails_dropLast_untilFailure hc
  failed := by rw [planned_error_iff, planned, anyFails_untilFailure, and_iff_left rfl]
  errors e he := by
    obtain ⟨-, rfl⟩ := planned_error_iff.mp he
    exact hes

theorem refused_disciplined {α : Type} {E : Cipher} {K : List Byte} {es : List CoreError} {cs : List Call}
    {e : CoreError} (hcs : ∀ c ∈ cs, blockToBytes c.1 = K) (hes : .blockCipherError ∈ es) (he : e ∈ es)
    (hne : e ≠ .blockCipherError) : Disciplined E K es (refused (α := α) E cs e) where
  key c hc := hcs c (mem_of_mem_untilFailure hc)
  answered c hc := fails_dropLast_untilFailure hc
  failed := by
    rw [refused_error_iff, refused, anyFails_untilFailure]
    cases anyFails E cs <;> simp [hne]
  errors e' he' := by
    rw [refused_error_iff] at he'
    split at he'
    · exact he' ▸ hes
    · exact he' ▸ he

/-- An error raised without a call. -/
theorem runRaise_disciplined {α : Type} (E : Cipher) (K : List Byte) {es : List CoreError} {e : CoreError}
    (hes : .blockCipherError ∈ es) (he : e ∈ es) (hne : e ≠ .blockCipherError) :
    Disciplined E K es (runRaise (α := α) e) := by
  rw [runRaise_refused E e]
  exact refused_disciplined nofun hes he hne

/-! ### The key on every intended call -/

theorem key_of_mem_macCalls {E : Cipher} {K : Block} {m : List Byte} {c : Call} (h : c ∈ macCalls E K m) : c.1 = K := by
  rw [macCalls, List.mem_cons, List.mem_map] at h
  obtain rfl | ⟨j, -, rfl⟩ := h <;> rfl

theorem key_of_mem_ctrCalls {K S : Block} {x : List Byte} {c : Call} (h : c ∈ ctrCalls K S x) : c.1 = K := by
  rw [ctrCalls, List.mem_map] at h
  obtain ⟨j, -, rfl⟩ := h
  rfl

theorem key_of_mem_decMacCalls {E : Cipher} {K : Block} {N H C : List Byte} {c : Call}
    (h : c ∈ decMacCalls E K N H C) : c.1 = K := by
  rw [decMacCalls, List.mem_append, List.mem_append] at h
  obtain (h | h) | h := h <;> exact key_of_mem_macCalls h

theorem key_of_mem_encCalls {E : Cipher} {K : Block} {N H P : List Byte} {c : Call}
    (h : c ∈ encCalls E K N H P) : c.1 = K := by
  rw [encCalls, List.mem_append, List.mem_append, List.mem_append] at h
  obtain ((h | h) | h) | h := h
  · exact key_of_mem_macCalls h
  · exact key_of_mem_macCalls h
  · exact key_of_mem_ctrCalls h
  · exact key_of_mem_macCalls h

/-! ### The four function rules -/

theorem macRun_disciplined (E : Cipher) (K m : List Byte) :
    Disciplined E K [.invalidKeyLength, .blockCipherError] (macRun E K m) := by
  by_cases hkey : K.length = 16
  · rw [macRun_planned E m hkey]
    exact planned_disciplined _ (fun c hc => key_of_mem_macCalls hc ▸ keyBlock_bytes hkey) (by simp)
  · rw [macRun_of_length_ne E m hkey]
    exact runRaise_disciplined E K (by simp) (by simp) (by simp)

theorem counterCipherRun_disciplined (E : Cipher) (K : List Byte) (IV : Block) (x : List Byte) :
    Disciplined E K [.invalidKeyLength, .blockCipherError] (counterCipherRun E K IV x) := by
  by_cases hkey : K.length = 16
  · rw [counterCipherRun_planned E IV x hkey]
    exact planned_disciplined _ (fun c hc => key_of_mem_ctrCalls hc ▸ keyBlock_bytes hkey) (by simp)
  · rw [counterCipherRun_of_length_ne E IV x hkey]
    exact runRaise_disciplined E K (by simp) (by simp) (by simp)

theorem encryptRun_disciplined (E : Cipher) (K N H P : List Byte) (tl : Nat) :
    Disciplined E K [.invalidKeyLength, .invalidTagLength, .blockCipherError] (encryptRun E K N H P tl) := by
  by_cases hkey : K.length = 16
  case neg =>
    rw [encryptRun_of_length_ne E N H P tl hkey]
    exact runRaise_disciplined E K (by simp) (by simp) (by simp)
  by_cases htl : tl ≤ 16
  · rw [encryptRun_planned E N H P hkey htl]
    exact planned_disciplined _ (fun c hc => key_of_mem_encCalls hc ▸ keyBlock_bytes hkey) (by simp)
  · rw [encryptRun_of_tagLength_gt E N H P hkey (Nat.lt_of_not_le htl)]
    exact runRaise_disciplined E K (by simp) (by simp) (by simp)

theorem decryptRun_disciplined (E : Cipher) (K N H C T : List Byte) :
    Disciplined E K [.invalidKeyLength, .authenticationFailure, .blockCipherError] (decryptRun E K N H C T) := by
  by_cases hkey : K.length = 16
  case neg =>
    rw [decryptRun_of_length_ne E N H C T hkey]
    exact runRaise_disciplined E K (by simp) (by simp) (by simp)
  have hmacs (c) (hc : c ∈ decMacCalls E (keyBlock K) N H C) : blockToBytes c.1 = K :=
    key_of_mem_decMacCalls hc ▸ keyBlock_bytes hkey
  by_cases htag : T = firstBytes (fullTag E (keyBlock K) N H C) T.length
  · rw [decryptRun_of_tag_eq E N H C hkey htag]
    refine planned_disciplined _ (fun c hc => ?_) (by simp)
    obtain hc | hc := List.mem_append.mp hc
    · exact hmacs c hc
    · exact key_of_mem_ctrCalls hc ▸ keyBlock_bytes hkey
  · rw [decryptRun_of_tag_ne E N H C hkey htag]
    exact refused_disciplined hmacs (by simp) (by simp) (by simp)

/-! ### What a command leaves after such a run -/

/-- The codes a keyed command can end with are OK and those of the errors of its run. -/
theorem EndsAs.err_mem {α : Type} {E : Cipher} {K : List Byte} {es : List CoreError} {r : Run α} {t : State}
    (h : EndsAs r t) (hr : Disciplined E K es r) : t.err ∈ ErrCode.ok :: es.map errCodeOf := by
  obtain ⟨hok, -⟩ | ⟨e, he, herr⟩ := h
  · rw [hok]
    exact List.mem_cons_self
  · rw [herr]
    exact List.mem_cons_of_mem _ (List.mem_map_of_mem (hr.errors e he))

/-- ERR is BlockCipherError exactly where a call of the run failed. -/
theorem EndsAs.blockCipherError_iff {α : Type} {E : Cipher} {K : List Byte} {es : List CoreError} {r : Run α} {t : State}
    (h : EndsAs r t) (hr : Disciplined E K es r) : anyFails E r.calls = true ↔ t.err = .blockCipherError := by
  rw [hr.failed]
  obtain ⟨hok, a, ha⟩ | ⟨e, he, herr⟩ := h
  · simp [hok, ha]
  · rw [he, herr, Except.error.injEq]
    exact errCodeOf_injective.eq_iff.symm

end Sys2Proof.Machine
end

section
/-!
PROOFS of the statements about how a command ends: its result codes (R114), what an error leaves (R117), and the calls on
the cipher port (R41). The keyed commands end as their runs do.
-/

namespace Sys2Proof.Machine

open Sys2Proof.Pseudo

/-! ### Terms that are not well formed (R50) -/

theorem clrTarget_eq_none_iff (sp : Space) : clrTarget sp = none ↔ sp.clearable = false := by
  cases sp <;> decide

theorem putTarget_eq_none_iff (sp : Space) : putTarget sp = none ↔ sp.puttable = false := by
  cases sp <;> decide

theorem getbSource_eq_none_iff (sp : Space) : getbSource sp = none ↔ sp.readable = false := by
  cases sp <;> decide

/-- A term that is not well formed has the effect of its Illegal word. -/
theorem exec_of_not_wellFormed {i : Instr} (h : i.wellFormed = false) (s : State) :
    exec i s = .next (illegalCommand s) := by
  cases i with
  | clr buf => exact exec_clr_illegal ((clrTarget_eq_none_iff buf).mpr h) s
  | put buf v => exact exec_put_illegal v ((putTarget_eq_none_iff buf).mpr h) s
  | getb buf ix => exact exec_getb_illegal ix ((getbSource_eq_none_iff buf).mpr h) s
  | tmac d => exact exec_tmac_illegal (of_decide_eq_false h) s
  | nop | setb | settl | getl | getr | dbl | mac | ctr | enc | dec => cases h

/-! ### The codes of the keyed commands (R114) -/

theorem macCommand_err_mem (E : Cipher) (s : State) :
    (macCommand E s).err ∈ [ErrCode.ok, .invalidKeyLength, .blockCipherError] :=
  (finishRes_endsAs _ s).err_mem (macRun_disciplined E _ _)

theorem tmacCommand_err_mem (E : Cipher) (d : Byte) (s : State) :
    (tmacCommand E d s).err ∈ [ErrCode.ok, .invalidKeyLength, .blockCipherError] :=
  (finishRes_endsAs _ s).err_mem (macRun_disciplined E _ _)

theorem ctrCommand_err_mem (E : Cipher) (s : State) :
    (ctrCommand E s).err ∈ [ErrCode.ok, .invalidKeyLength, .blockCipherError] :=
  (finishDout_endsAs _ s).err_mem (counterCipherRun_disciplined E _ _ _)

theorem encCommand_err_mem (E : Cipher) (s : State) :
    (encCommand E s).err ∈ [ErrCode.ok, .invalidKeyLength, .invalidTagLength, .blockCipherError] :=
  (finishDoutTag_endsAs _ s).err_mem (encryptRun_disciplined E _ _ _ _ _)

theorem decCommand_err_mem (E : Cipher) (s : State) :
    (decCommand E s).err ∈ [ErrCode.ok, .invalidKeyLength, .authenticationFailure, .blockCipherError] :=
  (finishDout_endsAs _ s).err_mem (decryptRun_disciplined E _ _ _ _ _)

/-- Settles O42: the keyed commands end as their runs do, and the others write a fixed code or none. -/
theorem possibleResultCodes : Obligations.PossibleResultCodes := by
  intro i s t h
  split
  case isFalse hwf =>
    obtain rfl := next_inj ((exec_of_not_wellFormed (Bool.eq_false_iff.mpr hwf) s).symm.trans h)
    exact illegalCommand_err s
  case isTrue hwf =>
    have hdid := exec_inv h
    cases i with
    | nop | setb | settl | getl | dbl =>
      obtain rfl := hdid
      rfl
    | clr buf =>
      obtain ⟨b, -, rfl⟩ | ⟨hnone, -⟩ := hdid
      · exact endWithBuf_err ..
      · rw [Instr.wellFormed, (clrTarget_eq_none_iff buf).mp hnone] at hwf
        cases hwf
    | put buf v =>
      obtain ⟨b, -, -, rfl⟩ | ⟨b, -, -, rfl⟩ | ⟨hnone, -⟩ := hdid
      · simp
      · simp
      · rw [Instr.wellFormed, (putTarget_eq_none_iff buf).mp hnone] at hwf
        cases hwf
    | getb buf ix =>
      obtain ⟨sp, -, rfl⟩ | ⟨hnone, -⟩ := hdid
      · exact endWithRdata_err ..
      · rw [Instr.wellFormed, (getbSource_eq_none_iff buf).mp hnone] at hwf
        cases hwf
    | getr reg => cases reg <;> obtain rfl := hdid <;> exact endWithRdata_err ..
    | mac =>
      obtain rfl := hdid
      exact macCommand_err_mem _ s
    | tmac d =>
      obtain ⟨-, rfl⟩ | ⟨hd, -⟩ := hdid
      · exact tmacCommand_err_mem _ d s
      · exact absurd (of_decide_eq_true hwf) hd
    | ctr =>
      obtain rfl := hdid
      exact ctrCommand_err_mem _ s
    | enc =>
      obtain rfl := hdid
      exact encCommand_err_mem _ s
    | dec =>
      obtain rfl := hdid
      exact decCommand_err_mem _ s

/-! ### What an error leaves (R117) -/

theorem finishRes_of_err_ne_ok {r : Run Block} {s : State} (h : (finishRes r s).err ≠ .ok) :
    finishRes r s = withRes s 0#128 (finishRes r s).err r.calls := by
  obtain ⟨d, -, hs⟩ | ⟨e, -, hs⟩ := finishRes_cases r s
  · exact absurd (by rw [hs, withRes]) h
  · rw [hs]
    rfl

theorem finishDout_of_err_ne_ok {r : Run (List Byte)} {s : State} (h : (finishDout r s).err ≠ .ok) :
    finishDout r s = withDout s [] (finishDout r s).err r.calls := by
  obtain ⟨x, -, hs⟩ | ⟨e, -, hs⟩ := finishDout_cases r s
  · exact absurd (by rw [hs, withDout]) h
  · rw [hs]
    rfl

theorem finishDoutTag_of_err_ne_ok {r : Run (List Byte × List Byte)} {s : State}
    (h : (finishDoutTag r s).err ≠ .ok) :
    finishDoutTag r s = withDoutTag s [] [] (finishDoutTag r s).err r.calls := by
  obtain ⟨c, t, -, hs⟩ | ⟨e, -, hs⟩ := finishDoutTag_cases r s
  · exact absurd (by rw [hs, withDoutTag]) h
  · rw [hs]
    rfl

/-- PUT ends with a nonzero code only where the buffer is full. -/
theorem exec_put_of_err_ne_ok {buf : Space} {v : Byte} {s t : State} (hbuf : buf.puttable = true)
    (h : exec (.put buf v) s = .next t) (herr : t.err ≠ .ok) : t = setErr s .bufferFull := by
  obtain ⟨b, -, -, rfl⟩ | ⟨b, -, -, rfl⟩ | ⟨hnone, -⟩ := exec_inv h
  · rfl
  · exact absurd (endWithBuf_err ..) herr
  · rw [(putTarget_eq_none_iff buf).mp hnone] at hbuf
    cases hbuf

/-- MAC and TMAC are the end of a MAC of some message. -/
theorem exec_mac_or_tmac {i : Instr} {s t : State} (hi : i = .mac ∨ ∃ d, i = .tmac d ∧ d.toNat ≤ 2)
    (h : exec i s = .next t) : ∃ m, t = finishRes (macRun Config.encryptBlock s.mem.key m) s := by
  obtain rfl | ⟨d, rfl, hd⟩ := hi
  · exact ⟨_, exec_inv h⟩
  · exact ⟨_, (next_inj ((exec_tmac_of (BitVec.le_def.mpr hd) s).symm.trans h)).symm⟩

/-- Settles O43: on an error an operation command ends with its outputs zeroed or emptied and a code of its run. -/
theorem errorEffects : Obligations.ErrorEffects := by
  refine ⟨fun i s => (exec_of_not_wellFormed · s), fun s t buf v => exec_put_of_err_ne_ok,
    fun i s t hi h herr => ?macs, fun s t h herr => ?ctr, fun s t h herr => ?enc, fun s t h herr => ?dec⟩
  case macs =>
    obtain ⟨m, rfl⟩ := exec_mac_or_tmac hi h
    have hcode := (finishRes_endsAs _ s).err_mem (macRun_disciplined Config.encryptBlock s.mem.key m)
    exact ⟨(List.mem_cons.mp hcode).resolve_left herr, _, finishRes_of_err_ne_ok herr⟩
  case ctr =>
    obtain rfl : t = ctrCommand Config.encryptBlock s := exec_inv h
    exact ⟨(List.mem_cons.mp (ctrCommand_err_mem _ s)).resolve_left herr, _, finishDout_of_err_ne_ok herr⟩
  case enc =>
    obtain rfl : t = encCommand Config.encryptBlock s := exec_inv h
    exact ⟨(List.mem_cons.mp (encCommand_err_mem _ s)).resolve_left herr, _, finishDoutTag_of_err_ne_ok herr⟩
  case dec =>
    obtain rfl : t = decCommand Config.encryptBlock s := exec_inv h
    exact ⟨(List.mem_cons.mp (decCommand_err_mem _ s)).resolve_left herr, _, finishDout_of_err_ne_ok herr⟩

/-! ### The cipher port (R41, R117) -/

/-- What R41 and R117 say of a command that led from `s` to `t`. -/
def KeepsPortDiscipline (s t : State) : Prop :=
  ∃ cs, t.trace = s.trace ++ cs ∧ (cs ≠ [] → s.mem.key.length = 16) ∧ (∀ c ∈ cs, blockToBytes c.1 = s.mem.key) ∧
    (∀ c ∈ cs.dropLast, fails Config.encryptBlock c = false) ∧
    (cs ≠ [] → (anyFails Config.encryptBlock cs = true ↔ t.err = .blockCipherError))

theorem keepsPortDiscipline_of_no_call {s t : State} (h : t.trace = s.trace) : KeepsPortDiscipline s t :=
  ⟨[], by rw [h, List.append_nil], fun hne => absurd rfl hne, nofun, nofun, fun hne => absurd rfl hne⟩

theorem keepsPortDiscipline_of_run {α : Type} {es : List CoreError} {r : Run α} {s t : State}
    (hr : Disciplined Config.encryptBlock s.mem.key es r) (htrace : t.trace = s.trace ++ r.calls) (ht : EndsAs r t) :
    KeepsPortDiscipline s t := by
  have hlen (hne : r.calls ≠ []) : s.mem.key.length = 16 := by
    obtain ⟨c, hc⟩ := List.exists_mem_of_ne_nil _ hne
    rw [← hr.key c hc, blockToBytes_length]
  exact ⟨r.calls, htrace, hlen, hr.key, hr.answered, fun _ => ht.blockCipherError_iff hr⟩

/-- Settles O47: a keyed command makes the calls of its run, every other command none. -/
theorem cipherPortDiscipline : Obligations.CipherPortDiscipline := by
  intro i s t h
  have hdid := exec_inv h
  cases i with
  | mac =>
    obtain rfl := hdid
    exact keepsPortDiscipline_of_run (macRun_disciplined _ _ _) (finishRes_trace _ s) (finishRes_endsAs _ s)
  | tmac d =>
    obtain ⟨-, rfl⟩ | ⟨-, rfl⟩ := hdid
    · exact keepsPortDiscipline_of_run (macRun_disciplined _ _ _) (finishRes_trace _ s) (finishRes_endsAs _ s)
    · exact keepsPortDiscipline_of_no_call rfl
  | ctr =>
    obtain rfl := hdid
    exact keepsPortDiscipline_of_run (counterCipherRun_disciplined _ _ _ _) (finishDout_trace _ s)
      (finishDout_endsAs _ s)
  | enc =>
    obtain rfl := hdid
    exact keepsPortDiscipline_of_run (encryptRun_disciplined _ _ _ _ _ _) (finishDoutTag_trace _ s)
      (finishDoutTag_endsAs _ s)
  | dec =>
    obtain rfl := hdid
    exact keepsPortDiscipline_of_run (decryptRun_disciplined _ _ _ _ _ _) (finishDout_trace _ s)
      (finishDout_endsAs _ s)
  | nop | clr | put | setb | settl | getb | getl | getr | dbl =>
    exact keepsPortDiscipline_of_no_call (exec_trace_of_not_keyed (by simp) h)

/-- Settles O52: the empty KEY is refused before any call. -/
theorem noKeyAfterReset : Obligations.NoKeyAfterReset := by
  have hkey : State.reset.mem.key.length ≠ 16 := by decide
  have hmac : exec .mac State.reset = .next (withRes State.reset 0#128 .invalidKeyLength []) := by
    rw [exec_mac, macCommand, finishRes_macRun_of_length_ne _ _ hkey]
  have htmac (d : Byte) (hd : d ≤ 2#8) :
      exec (.tmac d) State.reset = .next (withRes State.reset 0#128 .invalidKeyLength []) := by
    rw [exec_tmac_of hd, tmacCommand_eq_finishRes, finishRes_macRun_of_length_ne _ _ hkey]
  have hctr : exec .ctr State.reset = .next (withDout State.reset [] .invalidKeyLength []) := by
    rw [exec_ctr, ctrCommand_of_length_ne _ hkey]
  have henc : exec .enc State.reset = .next (withDoutTag State.reset [] [] .invalidKeyLength []) := by
    rw [exec_enc, encCommand_of_length_ne _ hkey]
  have hdec : exec .dec State.reset = .next (withDout State.reset [] .invalidKeyLength []) := by
    rw [exec_dec, decCommand_of_length_ne _ hkey]
  intro i hi
  simp only [List.mem_cons, List.not_mem_nil, or_false] at hi
  obtain rfl | rfl | rfl | rfl | rfl | rfl | rfl := hi
  · exact ⟨_, hmac, rfl, rfl⟩
  · exact ⟨_, htmac 0#8 (by decide), rfl, rfl⟩
  · exact ⟨_, htmac 1#8 (by decide), rfl, rfl⟩
  · exact ⟨_, htmac 2#8 (by decide), rfl, rfl⟩
  · exact ⟨_, hctr, rfl, rfl⟩
  · exact ⟨_, henc, rfl, rfl⟩
  · exact ⟨_, hdec, rfl, rfl⟩

end Sys2Proof.Machine
end

section
/-!
PROOFS of the statements about who writes what (R11 to R18), about repeating a command (R35), and about two runs from states
that differ in the bytes of KEY (R12) or in ERR, RDATA and TRACE (R20, R41).
-/

namespace Sys2Proof.Machine

open Sys2Proof.Pseudo

/-! ### Who writes what (R11 to R18) -/

/-- A target of CLR is the buffer of its space. -/
theorem eq_spaceOfBuf_of_clrTarget {sp : Space} {b : Buf} (h : clrTarget sp = some b) : sp = spaceOfBuf b := by
  cases sp <;> cases h <;> rfl

/-- A target of PUT is the buffer of its space. -/
theorem eq_spaceOfBuf_of_putTarget {sp : Space} {b : Buf} (h : putTarget sp = some b) : sp = spaceOfBuf b := by
  cases sp <;> cases h <;> rfl

/-- Settles O45: each command's one update leaves every piece that does not list the command as a writer. -/
theorem onlyItsWritersChangeAPiece : Obligations.OnlyItsWritersChangeAPiece := by
  intro i s t h
  have hdid := exec_inv h
  -- What excludes a read quantifies over its operands, so it is false only where such operands exist.
  have hspaces : Nonempty Space := ⟨.key⟩
  have hregs : Nonempty CtrlReg := ⟨.status⟩
  cases i with
  | nop | setb | settl | getl | dbl =>
    obtain rfl := hdid
    simp
  | clr buf =>
    obtain ⟨b, hb, rfl⟩ | ⟨-, rfl⟩ := hdid
    · obtain rfl := eq_spaceOfBuf_of_clrTarget hb
      cases b <;> simp [setBuf, spaceOfBuf]
    · simp
  | put buf v =>
    obtain ⟨b, -, -, rfl⟩ | ⟨b, hb, -, rfl⟩ | ⟨-, rfl⟩ := hdid
    · simp
    · obtain rfl := eq_spaceOfBuf_of_putTarget hb
      cases b <;> simp [setBuf, spaceOfBuf, putTarget] at *
    · simp
  | getb buf ix => obtain ⟨sp, -, rfl⟩ | ⟨-, rfl⟩ := hdid <;> simp
  | getr reg => cases reg <;> obtain rfl := hdid <;> simp
  | mac =>
    obtain rfl := hdid
    obtain ⟨d, hd⟩ := finishRes_mem (macRun Config.encryptBlock s.mem.key s.mem.din) s
    simp [macCommand, hd]
  | tmac d =>
    obtain ⟨-, rfl⟩ | ⟨-, rfl⟩ := hdid
    · obtain ⟨d', hd'⟩ := finishRes_mem (taggedMacRun Config.encryptBlock s.mem.key d s.mem.din) s
      simp [tmacCommand, hd']
    · simp
  | ctr =>
    obtain rfl := hdid
    obtain ⟨x, hx⟩ := finishDout_mem (counterCipherRun Config.encryptBlock s.mem.key s.mem.blk s.mem.din) s
    simp [ctrCommand, hx]
  | enc =>
    obtain rfl := hdid
    obtain ⟨x, y, hxy⟩ := finishDoutTag_mem
      (encryptRun Config.encryptBlock s.mem.key s.mem.nonce s.mem.hdr s.mem.din s.tlen.toNat) s
    simp [encCommand, hxy]
  | dec =>
    obtain rfl := hdid
    obtain ⟨x, hx⟩ := finishDout_mem
      (decryptRun Config.encryptBlock s.mem.key s.mem.nonce s.mem.hdr s.mem.din s.mem.tag) s
    simp [decCommand, hx]

/-! ### Repeating a command (R34, R35) -/

/-- An observing command copies the same value again: it has written neither the spaces nor the registers it reads. -/
theorem observing_again {i : Instr} {s t : State} (hi : ∃ sp j r, i = .getb sp j ∨ i = .getl sp ∨ i = .getr r)
    (hwf : i.wellFormed = true) (h : exec i s = .next t) : t = { s with rdata := t.rdata } ∧ exec i t = .next t := by
  have hdid := exec_inv h
  obtain ⟨sp, j, r, rfl | rfl | rfl⟩ := hi
  · obtain ⟨sp', hsp', rfl⟩ | ⟨hnone, -⟩ := hdid
    · exact ⟨rfl, exec_getb_of j hsp' _⟩
    · rw [Instr.wellFormed, (getbSource_eq_none_iff sp).mp hnone] at hwf
      cases hwf
  · obtain rfl := hdid
    exact ⟨rfl, rfl⟩
  · cases r <;> obtain rfl := hdid <;> exact ⟨rfl, rfl⟩

/-- SETB writes the same byte again. -/
theorem blockSetByte_blockSetByte (x : Block) {i : Nat} (hi : i < 16) (v : Byte) :
    blockSetByte (blockSetByte x i v) i v = blockSetByte x i v := by
  apply block_ext
  intro j hj
  rw [blockByte_setByte _ _ hi hj, blockByte_setByte _ _ hi hj]
  split <;> rfl

/-- The end of an operation command, met again with the same run, adds to TRACE alone. -/
theorem finishRes_again (r : Run Block) (s : State) :
    { finishRes r (finishRes r s) with trace := (finishRes r s).trace } = finishRes r s := by
  unfold finishRes
  cases r.result <;> rfl

theorem finishDout_again (r : Run (List Byte)) (s : State) :
    { finishDout r (finishDout r s) with trace := (finishDout r s).trace } = finishDout r s := by
  unfold finishDout
  cases r.result <;> rfl

theorem finishDoutTag_again (r : Run (List Byte × List Byte)) (s : State) :
    { finishDoutTag r (finishDoutTag r s) with trace := (finishDoutTag r s).trace } = finishDoutTag r s := by
  unfold finishDoutTag
  cases r.result <;> rfl

/-- MAC leaves its inputs, so it has the same run again; so do the other keyed commands (R15). -/
theorem macCommand_again (E : Cipher) (s : State) :
    { macCommand E (macCommand E s) with trace := (macCommand E s).trace } = macCommand E s := by
  obtain ⟨d, hd⟩ := finishRes_mem (macRun E s.mem.key s.mem.din) s
  have hagain := finishRes_again (macRun E s.mem.key s.mem.din) s
  rw [macCommand, macCommand, hd]
  exact hagain

theorem tmacCommand_again (E : Cipher) (t : Byte) (s : State) :
    { tmacCommand E t (tmacCommand E t s) with trace := (tmacCommand E t s).trace } = tmacCommand E t s := by
  obtain ⟨d, hd⟩ := finishRes_mem (taggedMacRun E s.mem.key t s.mem.din) s
  have hagain := finishRes_again (taggedMacRun E s.mem.key t s.mem.din) s
  rw [tmacCommand, tmacCommand, hd]
  exact hagain

theorem ctrCommand_again (E : Cipher) (s : State) :
    { ctrCommand E (ctrCommand E s) with trace := (ctrCommand E s).trace } = ctrCommand E s := by
  obtain ⟨x, hx⟩ := finishDout_mem (counterCipherRun E s.mem.key s.mem.blk s.mem.din) s
  have hagain := finishDout_again (counterCipherRun E s.mem.key s.mem.blk s.mem.din) s
  rw [ctrCommand, ctrCommand, hx]
  exact hagain

theorem encCommand_again (E : Cipher) (s : State) :
    { encCommand E (encCommand E s) with trace := (encCommand E s).trace } = encCommand E s := by
  obtain ⟨x, y, hxy⟩ := finishDoutTag_mem (encryptRun E s.mem.key s.mem.nonce s.mem.hdr s.mem.din s.tlen.toNat) s
  have hagain := finishDoutTag_again (encryptRun E s.mem.key s.mem.nonce s.mem.hdr s.mem.din s.tlen.toNat) s
  rw [encCommand, encCommand, hxy, finishDoutTag_tlen]
  exact hagain

theorem decCommand_again (E : Cipher) (s : State) :
    { decCommand E (decCommand E s) with trace := (decCommand E s).trace } = decCommand E s := by
  obtain ⟨x, hx⟩ := finishDout_mem (decryptRun E s.mem.key s.mem.nonce s.mem.hdr s.mem.din s.mem.tag) s
  have hagain := finishDout_again (decryptRun E s.mem.key s.mem.nonce s.mem.hdr s.mem.din s.mem.tag) s
  rw [decCommand, decCommand, hx]
  exact hagain

/-- Every command but PUT writes the same again. -/
theorem exec_again {i : Instr} {s t u : State} (hput : ∀ sp v, i ≠ .put sp v) (h : exec i s = .next t)
    (h' : exec i t = .next u) : { u with trace := t.trace } = t := by
  have hdid := exec_inv h
  cases i with
  | nop | settl | getl | dbl =>
    obtain rfl := hdid
    obtain rfl := next_inj h'
    rfl
  | clr buf =>
    obtain ⟨b, hb, rfl⟩ | ⟨hnone, rfl⟩ := hdid
    · obtain rfl := next_inj ((exec_clr_of hb _).symm.trans h')
      simp only [endWithBuf, setErr, setBuf_setBuf]
    · obtain rfl := next_inj ((exec_clr_illegal hnone _).symm.trans h')
      rfl
  | put buf v => exact absurd rfl (hput buf v)
  | setb ix v =>
    obtain rfl := hdid
    obtain rfl := next_inj h'
    simp only [endWithBlk, setErr, blockSetByte_blockSetByte _ ix.isLt]
  | getb buf ix =>
    obtain ⟨sp, hsp, rfl⟩ | ⟨hnone, rfl⟩ := hdid
    · obtain rfl := next_inj ((exec_getb_of ix hsp _).symm.trans h')
      rfl
    · obtain rfl := next_inj ((exec_getb_illegal ix hnone _).symm.trans h')
      rfl
  | getr reg =>
    cases reg <;>
    · obtain rfl := hdid
      obtain rfl := next_inj h'
      rfl
  | mac =>
    obtain rfl := hdid
    obtain rfl := next_inj h'
    exact macCommand_again _ s
  | tmac d =>
    obtain ⟨hd, rfl⟩ | ⟨hd, rfl⟩ := hdid
    · obtain rfl := next_inj ((exec_tmac_of hd _).symm.trans h')
      exact tmacCommand_again _ d s
    · obtain rfl := next_inj ((exec_tmac_illegal hd _).symm.trans h')
      rfl
  | ctr =>
    obtain rfl := hdid
    obtain rfl := next_inj h'
    exact ctrCommand_again _ s
  | enc =>
    obtain rfl := hdid
    obtain rfl := next_inj h'
    exact encCommand_again _ s
  | dec =>
    obtain rfl := hdid
    obtain rfl := next_inj h'
    exact decCommand_again _ s

/-- Settles O46: a command reads nothing it has written, but for PUT. -/
theorem repeatingACommand : Obligations.RepeatingACommand :=
  ⟨fun _ _ _ => observing_again, fun _ _ _ _ => exec_again⟩

/-! ### Two runs that differ in the bytes of KEY (R12) -/

/-- The state with the content of KEY replaced. -/
def withKey (s : State) (k : List Byte) : State :=
  { s with mem := { s.mem with key := k } }

theorem agreeButKeyBytes_iff {s s' : State} :
    agreeButKeyBytes s s' ↔ ∃ k, k.length = s.mem.key.length ∧ s' = withKey s k := by
  constructor
  · rintro ⟨hlen, hrest⟩
    have hs : withKey (withKey s' []) s'.mem.key = withKey (withKey s []) s'.mem.key :=
      congrArg (withKey · s'.mem.key) hrest.symm
    exact ⟨s'.mem.key, hlen.symm, hs⟩
  · rintro ⟨k, hlen, rfl⟩
    exact ⟨hlen.symm, rfl⟩

/-- The space GETB reads is not KEY. -/
theorem ne_key_of_getbSource {buf sp : Space} (h : getbSource buf = some sp) : sp ≠ .key := by
  cases buf <;> cases h <;> decide

theorem readByte_withKey (s : State) (k : List Byte) {sp : Space} (h : sp ≠ .key) (j : Nat) :
    readByte (withKey s k).mem sp j = readByte s.mem sp j := by
  cases sp with
  | key => exact absurd rfl h
  | nonce | hdr | din | dout | tag | blk | res => rfl

theorem spaceLen_withKey (s : State) {k : List Byte} (h : k.length = s.mem.key.length) (sp : Space) :
    spaceLen (withKey s k).mem sp = spaceLen s.mem sp := by
  cases sp with
  | key => exact h
  | nonce | hdr | din | dout | tag | blk | res => rfl

/-- What CLR and PUT do with a buffer that is not KEY. -/
theorem endWithBuf_withKey (s : State) (k : List Byte) {b : Buf} (h : b ≠ .key) (x : List Byte) (e : ErrCode) :
    (endWithBuf s b x e).mem.key = s.mem.key ∧ bufBytes (withKey s k).mem b = bufBytes s.mem b ∧
      endWithBuf (withKey s k) b x e = withKey (endWithBuf s b x e) k := by
  cases b with
  | key => exact absurd rfl h
  | nonce | hdr | din | dout | tag => exact ⟨rfl, rfl, rfl⟩

/-- The second run of a command that is not keyed, from the state with another KEY of the same length. -/
theorem exec_withKey {i : Instr} {s t : State} {k : List Byte}
    (hi : i ∉ [Instr.mac, .tmac 0#8, .tmac 1#8, .tmac 2#8, .ctr, .enc, .dec]) (hk : k.length = s.mem.key.length)
    (h : exec i s = .next t) : ∃ k', k'.length = t.mem.key.length ∧ exec i (withKey s k) = .next (withKey t k') := by
  have hdid := exec_inv h
  cases i with
  | nop | setb | settl | dbl =>
    obtain rfl := hdid
    exact ⟨k, hk, rfl⟩
  | clr buf =>
    obtain ⟨b, hb, rfl⟩ | ⟨hnone, rfl⟩ := hdid
    · by_cases hkey : b = .key
      · subst hkey
        exact ⟨[], rfl, exec_clr_of hb _⟩
      · obtain ⟨hsame, -, hend⟩ := endWithBuf_withKey s k hkey [] .ok
        exact ⟨k, by rw [hsame, hk], by rw [exec_clr_of hb, hend]⟩
    · exact ⟨k, hk, exec_clr_illegal hnone _⟩
  | put buf v =>
    obtain ⟨b, hb, hfull, rfl⟩ | ⟨b, hb, hroom, rfl⟩ | ⟨hnone, rfl⟩ := hdid
    · refine ⟨k, hk, exec_put_full v hb ?_⟩
      by_cases hkey : b = .key
      · subst hkey
        exact hk.trans hfull
      · obtain ⟨-, hbytes, -⟩ := endWithBuf_withKey s k hkey [] .ok
        rw [hbytes, hfull]
    · by_cases hkey : b = .key
      · subst hkey
        refine ⟨k ++ [v], ?_, exec_put_room v hb (hk.trans_ne hroom)⟩
        rw [List.length_append, hk, ← List.length_append]
        rfl
      · obtain ⟨hsame, hbytes, hend⟩ := endWithBuf_withKey s k hkey (bufBytes s.mem b ++ [v]) .ok
        refine ⟨k, by rw [hsame, hk], ?_⟩
        rw [exec_put_room v hb (by rw [hbytes]; exact hroom), hbytes, hend]
    · exact ⟨k, hk, exec_put_illegal v hnone _⟩
  | getb buf ix =>
    obtain ⟨sp, hsp, rfl⟩ | ⟨hnone, rfl⟩ := hdid
    · refine ⟨k, hk, ?_⟩
      rw [exec_getb_of ix hsp, readByte_withKey s k (ne_key_of_getbSource hsp)]
      rfl
    · exact ⟨k, hk, exec_getb_illegal ix hnone _⟩
  | getl buf =>
    obtain rfl := hdid
    refine ⟨k, hk, ?_⟩
    rw [exec_getl, spaceLen_withKey s hk]
    rfl
  | getr reg => cases reg <;> obtain rfl := hdid <;> exact ⟨k, hk, rfl⟩
  | tmac d =>
    obtain ⟨hd, -⟩ | ⟨hd, rfl⟩ := hdid
    · exact absurd (tmac_mem_keyed hd) hi
    · exact ⟨k, hk, exec_tmac_illegal hd _⟩
  | mac | ctr | enc | dec => simp at hi

/-- Settles O49: the second state is the first with another KEY of the same length, before and after. -/
theorem keyBytesDoNotReachTheHost : Obligations.KeyBytesDoNotReachTheHost := by
  intro i s s' t hi hagree h
  obtain ⟨k, hk, rfl⟩ := agreeButKeyBytes_iff.mp hagree
  obtain ⟨k', hk', hexec⟩ := exec_withKey hi hk h
  exact ⟨_, hexec, agreeButKeyBytes_iff.mpr ⟨k', hk', rfl⟩⟩

/-! ### Two runs that differ in ERR, RDATA and TRACE (R20, R41) -/

/-- The state with ERR, RDATA and TRACE replaced. -/
def withRecords (s : State) (e : ErrCode) (v : Word) (cs : List Call) : State :=
  { s with err := e, rdata := v, trace := cs }

/-- The command that led from `s` to `t` did the same from `s'` to `u`. -/
structure ActsAlike (s t s' u : State) : Prop where
  mem : u.mem = t.mem
  tlen : u.tlen = t.tlen
  trace : ∃ ds, t.trace = s.trace ++ ds ∧ u.trace = s'.trace ++ ds
  err : u.err = t.err ∨ (t.err = s.err ∧ u.err = s'.err)
  rdata : u.rdata = t.rdata ∨ (t.rdata = s.rdata ∧ u.rdata = s'.rdata)

/-- A command that makes no call and writes neither ERR nor RDATA, or one of them. -/
theorem actsAlike_of_no_call {s t s' u : State} (hmem : u.mem = t.mem) (htlen : u.tlen = t.tlen)
    (ht : t.trace = s.trace) (hu : u.trace = s'.trace) (herr : u.err = t.err ∨ (t.err = s.err ∧ u.err = s'.err))
    (hrdata : u.rdata = t.rdata ∨ (t.rdata = s.rdata ∧ u.rdata = s'.rdata)) : ActsAlike s t s' u :=
  ⟨hmem, htlen, ⟨[], by rw [ht, List.append_nil], by rw [hu, List.append_nil]⟩, herr, hrdata⟩

section
variable (s : State) (e : ErrCode) (v : Word) (cs : List Call)

theorem actsAlike_endWithRdata (w : Word) :
    ActsAlike s (endWithRdata s w) (withRecords s e v cs) (endWithRdata (withRecords s e v cs) w) :=
  actsAlike_of_no_call rfl rfl rfl rfl (.inr ⟨rfl, rfl⟩) (.inl rfl)

theorem actsAlike_endWithBuf (b : Buf) (x : List Byte) (c : ErrCode) :
    ActsAlike s (endWithBuf s b x c) (withRecords s e v cs) (endWithBuf (withRecords s e v cs) b x c) :=
  actsAlike_of_no_call rfl rfl rfl rfl (.inl rfl) (.inr ⟨rfl, rfl⟩)

theorem actsAlike_setErr (c : ErrCode) :
    ActsAlike s (setErr s c) (withRecords s e v cs) (setErr (withRecords s e v cs) c) :=
  actsAlike_of_no_call rfl rfl rfl rfl (.inl rfl) (.inr ⟨rfl, rfl⟩)

theorem actsAlike_finishRes (r : Run Block) :
    ActsAlike s (finishRes r s) (withRecords s e v cs) (finishRes r (withRecords s e v cs)) := by
  unfold finishRes
  cases r.result <;> exact ⟨rfl, rfl, ⟨r.calls, rfl, rfl⟩, .inl rfl, .inr ⟨rfl, rfl⟩⟩

theorem actsAlike_finishDout (r : Run (List Byte)) :
    ActsAlike s (finishDout r s) (withRecords s e v cs) (finishDout r (withRecords s e v cs)) := by
  unfold finishDout
  cases r.result <;> exact ⟨rfl, rfl, ⟨r.calls, rfl, rfl⟩, .inl rfl, .inr ⟨rfl, rfl⟩⟩

theorem actsAlike_finishDoutTag (r : Run (List Byte × List Byte)) :
    ActsAlike s (finishDoutTag r s) (withRecords s e v cs) (finishDoutTag r (withRecords s e v cs)) := by
  unfold finishDoutTag
  cases r.result <;> exact ⟨rfl, rfl, ⟨r.calls, rfl, rfl⟩, .inl rfl, .inr ⟨rfl, rfl⟩⟩

/-- Every command but GETR STATUS, the one that reads ERR. -/
theorem exec_withRecords {i : Instr} {s t : State} (hi : i ≠ .getr .status) (h : exec i s = .next t) :
    ∃ u, exec i (withRecords s e v cs) = .next u ∧ ActsAlike s t (withRecords s e v cs) u := by
  have hdid := exec_inv h
  cases i with
  | nop =>
    obtain rfl := hdid
    exact ⟨_, rfl, actsAlike_of_no_call rfl rfl rfl rfl (.inr ⟨rfl, rfl⟩) (.inr ⟨rfl, rfl⟩)⟩
  | setb | settl | dbl =>
    obtain rfl := hdid
    exact ⟨_, rfl, actsAlike_of_no_call rfl rfl rfl rfl (.inl rfl) (.inr ⟨rfl, rfl⟩)⟩
  | clr buf =>
    obtain ⟨b, hb, rfl⟩ | ⟨hnone, rfl⟩ := hdid
    · exact ⟨_, exec_clr_of hb _, actsAlike_endWithBuf ..⟩
    · exact ⟨_, exec_clr_illegal hnone _, actsAlike_setErr ..⟩
  | put buf w =>
    obtain ⟨b, hb, hfull, rfl⟩ | ⟨b, hb, hroom, rfl⟩ | ⟨hnone, rfl⟩ := hdid
    · exact ⟨_, exec_put_full w hb hfull, actsAlike_setErr ..⟩
    · exact ⟨_, exec_put_room w hb hroom, actsAlike_endWithBuf ..⟩
    · exact ⟨_, exec_put_illegal w hnone _, actsAlike_setErr ..⟩
  | getb buf ix =>
    obtain ⟨sp, hsp, rfl⟩ | ⟨hnone, rfl⟩ := hdid
    · exact ⟨_, exec_getb_of ix hsp _, actsAlike_endWithRdata ..⟩
    · exact ⟨_, exec_getb_illegal ix hnone _, actsAlike_setErr ..⟩
  | getl buf =>
    obtain rfl := hdid
    exact ⟨_, rfl, actsAlike_endWithRdata ..⟩
  | getr reg =>
    cases reg with
    | status => exact absurd rfl hi
    | tlen =>
      obtain rfl := hdid
      exact ⟨_, rfl, actsAlike_endWithRdata ..⟩
  | mac =>
    obtain rfl := hdid
    exact ⟨_, rfl, actsAlike_finishRes ..⟩
  | tmac d =>
    obtain ⟨hd, rfl⟩ | ⟨hd, rfl⟩ := hdid
    · exact ⟨_, exec_tmac_of hd _, actsAlike_finishRes ..⟩
    · exact ⟨_, exec_tmac_illegal hd _, actsAlike_setErr ..⟩
  | ctr | dec =>
    obtain rfl := hdid
    exact ⟨_, rfl, actsAlike_finishDout ..⟩
  | enc =>
    obtain rfl := hdid
    exact ⟨_, rfl, actsAlike_finishDoutTag ..⟩

end

/-- Settles O51: only GETR STATUS reads one of the three, and it writes what it reads to RDATA alone. -/
theorem noCommandDependsOnErrOrTrace : Obligations.NoCommandDependsOnErrOrTrace := by
  intro i s t e v cs h
  by_cases hi : i = .getr .status
  · subst hi
    obtain rfl := next_inj ((exec_getr_status s).symm.trans h)
    exact ⟨_, exec_getr_status (withRecords s e v cs), rfl, rfl,
      ⟨[], (List.append_nil _).symm, (List.append_nil _).symm⟩, .inr ⟨rfl, rfl⟩, fun hne => absurd rfl hne,
      fun _ => statusWord_toNat (withRecords s e v cs)⟩
  · obtain ⟨u, hexec, hu⟩ := exec_withRecords e v cs hi h
    exact ⟨u, hexec, hu.mem, hu.tlen, hu.trace, hu.err, fun _ => hu.rdata, fun heq => absurd heq hi⟩

end Sys2Proof.Machine
end
